-- ==== Sys2Proof/Word.lean ====
section
/-! DEFINITION. The word types of XFD: the 8-bit stream byte and the 31-bit value (00_scope.md R5). -/

namespace Sys2Proof

/-- One stream byte (R5 `BYTE_BITS` = 8, R44). -/
abbrev Byte := BitVec 8

/-- A decoded value as the value bus carries it (R5 `VALUE_BITS` = 31, R65). -/
abbrev Value := BitVec 31

end Sys2Proof
end

