-- ==== Sys2Proof/Config.lean ====
section
/-! DEFINITION. The fixed parameters of XFD (00_scope.md R5) and the free values, which have no body. -/

namespace Sys2Proof.Config

/-- `MAX_FRAME_LEN` (R5): the longest frame, in bytes. -/
def maxFrameLen : Nat := 6

/-- `HOLD_CAP` (R5, R20): the capacity of the hold buffer, in bytes. -/
def holdCap : Nat := 6

/-- `MAX_TOKENS_PER_BYTE` (R5, R106). -/
def maxTokensPerByte : Nat := 6

/-- `LEAD_PAYLOAD(i)` (R5): payload bits in the lead byte of an `i`-byte frame. -/
def leadPayload (i : Nat) : Nat := if i = 1 then 7 else 7 - i

/-- `CONT_PAYLOAD` (R5): payload bits in a continuation byte. -/
def contPayload : Nat := 6

/-- `P(i)` (R65): the payload width of an `i`-byte frame. -/
def payloadWidth (i : Nat) : Nat := leadPayload i + contPayload * (i - 1)

/-- FREE VALUE (R29, R33, 93_implementation_defined.md I1 "any value"; log 7): what the 36 token lines
(`out_kind`, `out_cause`, `out_len`, `out_value`) carry at a step at which `out_valid = 0`, indexed by the
step counter. No body: nothing can be proved of its value. -/
opaque idleTokenWord : Nat → BitVec 36

/-- OPEN PARAMETER of the consumer boundary (R6, D23, I3; log 13): which named key a special-key slot is, by
a number for the key; `none` marks a reserved slot. No body. The block never reads it. -/
opaque specialKeyTable : Fin 27 → Option Nat

end Sys2Proof.Config
end

