-- ==== Sys2Proof/Syntax.lean ====
section
/-! DEFINITION. The result and token types of 00_scope.md R11 and the instructions of XFD: one constructor for
each row of spec/opcode_table.json (log 11). -/

namespace Sys2Proof

/-- The two causes of MALFORMED (R11, R140). -/
inductive Cause where
  | badLead
  | badCont
  deriving DecidableEq, Repr

/-- What `decode` returns (R11). -/
inductive DecodeResult where
  | frame (len : Nat) (value : Value)
  | needMore (need : Nat)
  | malformed (cause : Cause)
  deriving DecidableEq, Repr

/-- One output item (R11). -/
inductive Token where
  | frameTok (len : Nat) (value : Value)
  | malTok (cause : Cause) (byte : Byte)
  deriving DecidableEq, Repr

/-- The instructions: the frame formats the block decodes, the other outcomes of a decode, and the operations
(R23). The operands of a stream instruction are the bits its encoding carries. -/
inductive Instr where
  /-- FRAME1 (R87), format F1 `0aaaaaaa`. -/
  | frame1 (v : BitVec 7)
  /-- FRAME2 (R88), format F2. -/
  | frame2 (v : BitVec 11)
  /-- FRAME3 (R89), format F3. -/
  | frame3 (v : BitVec 16)
  /-- FRAME4 (R90), format F4. -/
  | frame4 (v : BitVec 21)
  /-- FRAME5 (R91), format F5. -/
  | frame5 (v : BitVec 26)
  /-- FRAME6 (R92), format F6. -/
  | frame6 (v : BitVec 31)
  /-- BAD_LEAD (R93), row `10xxxxxx`: a stray continuation byte, by its six low bits. -/
  | badLead (x : BitVec 6)
  /-- BAD_LEAD (R93), row `11111110`. -/
  | badLeadFE
  /-- BAD_LEAD (R93), row `11111111`. -/
  | badLeadFF
  /-- BAD_CONT (R94), row `00xxxxxx`: the lead byte, the payloads of the good continuations before the first
  bad byte, that byte's six low bits, and the frame's bytes after it (present, not examined). -/
  | badCont00 (lead : Byte) (good : List (BitVec 6)) (x : BitVec 6) (after : List Byte)
  /-- BAD_CONT (R94), row `01xxxxxx`. -/
  | badCont01 (lead : Byte) (good : List (BitVec 6)) (x : BitVec 6) (after : List Byte)
  /-- BAD_CONT (R94), row `11xxxxxx`. -/
  | badCont11 (lead : Byte) (good : List (BitVec 6)) (x : BitVec 6) (after : List Byte)
  /-- NEEDMORE (R95): a multi-byte lead and the bytes present after it, fewer than it declares. -/
  | needMore (lead : Byte) (present : List Byte)
  /-- DECODE (R80) of a byte list. -/
  | decode (B : List Byte)
  /-- IN_BYTE (R103) with its byte. -/
  | inByte (d : Byte)
  /-- IN_EOS (R105) with the eight data bits, which are ignored. -/
  | inEos (x : Byte)
  /-- OUT_TOKEN (R104). -/
  | outToken
  /-- RESET (R160). -/
  | reset
  /-- FEED (R100) of a chunk. -/
  | feed (C : List Byte)
  deriving DecidableEq, Repr

/-- An encoded instruction, by where its words stand (log 11): bytes at a frame start (R64), a command word on
the input channel (R71), a chunk as its run of commands (R100), the argument of a DECODE call (R80), the
consumer's `out_ready` (R104), the `rst` pin (R160). -/
inductive Wire where
  | stream (B : List Byte)
  | cmd (w : BitVec 9)
  | chunk (ws : List (BitVec 9))
  | buffer (B : List Byte)
  | outReady
  | rstPin
  deriving DecidableEq, Repr

/-- Why a wire holds no instruction. Both are refusals to read, never an effect of the block. -/
inductive DecodeError where
  /-- No byte stands at the frame start: R95 and the frame formats all need a lead byte. -/
  | emptyBuffer
  /-- A chunk's run of commands holds an EOS: R100's encoding is a run of IN_BYTE commands. -/
  | eosInChunk
  deriving DecidableEq, Repr

end Sys2Proof
end

