-- ==== Sys2Proof/Decode.lean ====
section
/-! DEFINITION. The frame decoder: the length extractor, the continuation validator and the scalar assembler
(30_encoding.md, 40_decoder.md), the instruction decoder over the opcode table's rows, and after it the encoder.
Everything is total. -/

namespace Sys2Proof

/-! ## The length extractor -/

/-- The top `i` bits of `b` are all ones (R7, R62). -/
def topOnes (i : Nat) (b : Byte) : Bool := b.extractLsb' (8 - i) i == BitVec.allOnes i

/-- `lead_len` (R62, the first form): the declared length, `none` for NONE. -/
def leadLen (b : Byte) : Option Nat :=
  if b.getLsbD 7 = false then some 1
  else [2, 3, 4, 5, 6].find? (fun i => topOnes i b && !b.getLsbD (7 - i))

/-- `need` (R82): the bytes that must be present before the frame led by `b` can be decided. -/
def need (b : Byte) : Nat :=
  match leadLen b with
  | some i => i
  | none => 1

/-- The class of a lead byte: one for each row of R61's table. -/
inductive LeadClass where
  | f1 | f2 | f3 | f4 | f5 | f6 | stray | leadFE | leadFF
  deriving DecidableEq, Repr

/-- One row of the lead table. -/
structure LeadRow where
  mask : Byte
  pattern : Byte
  cls : LeadClass
  deriving DecidableEq, Repr

/-- The lead rows of spec/opcode_table.json (`mask`, `match`), which are R61's patterns. -/
def leadRows : List LeadRow :=
  [⟨0x80, 0x00, .f1⟩, ⟨0xE0, 0xC0, .f2⟩, ⟨0xF0, 0xE0, .f3⟩, ⟨0xF8, 0xF0, .f4⟩, ⟨0xFC, 0xF8, .f5⟩,
   ⟨0xFE, 0xFC, .f6⟩, ⟨0xC0, 0x80, .stray⟩, ⟨0xFF, 0xFE, .leadFE⟩, ⟨0xFF, 0xFF, .leadFF⟩]

/-- The row's pattern fits the byte. -/
def LeadRow.fits (r : LeadRow) (b : Byte) : Bool := b &&& r.mask == r.pattern

/-- The class of a lead byte by the table. Some row always fits (R61), so the default is never taken. -/
def leadClass (b : Byte) : LeadClass :=
  match leadRows.find? (fun r => r.fits b) with
  | some r => r.cls
  | none => .leadFF

/-! ## The continuation validator and the scalar assembler -/

/-- `is_cont` (R63). -/
def isCont (c : Byte) : Bool := c &&& 0xC0 == 0x80

/-- The payload bits of a lead byte of an `i`-byte frame, `i >= 2`: `zext_31(b[6-i:0])` (R66). -/
def leadBits (i : Nat) (b : Byte) : Value := (b.extractLsb' 0 (7 - i)).setWidth 31

/-- The payload of a continuation byte, `c[5:0]` (R63). -/
def contBits (c : Byte) : BitVec 6 := c.extractLsb' 0 6

/-- One turn of R66's loop: `v <- (v << 6) | zext_31(c[5:0])`. -/
def shiftIn (v : Value) (c : Byte) : Value := (v <<< 6) ||| (contBits c).setWidth 31

/-- The loop of R80 over the continuation bytes in order: `none` at the first byte whose tag is not `10`
(R85), else the assembled value (R66, R86). -/
def assemble : Value → List Byte → Option Value
  | v, [] => some v
  | v, c :: cs => if c.extractLsb' 6 2 ≠ 0b10#2 then none else assemble (shiftIn v c) cs

/-- DECODE's function (R80), in the order of its checks (R144); `decode [] = NeedMore(1)` is R96's choice. -/
def decode : List Byte → DecodeResult
  | [] => .needMore 1
  | b0 :: rest =>
    if b0.getLsbD 7 = false then .frame 1 ((b0.extractLsb' 0 7).setWidth 31)
    else
      match leadLen b0 with
      | none => .malformed .badLead
      | some i =>
        if rest.length + 1 < i then .needMore i
        else
          match assemble (leadBits i b0) (rest.take (i - 1)) with
          | none => .malformed .badCont
          | some v => .frame i v

/-- The bytes a result consumes (R11, R81, R84): `len` for a frame, 1 for Malformed, none for NeedMore. -/
def DecodeResult.consumed : DecodeResult → Nat
  | .frame l _ => l
  | .malformed _ => 1
  | .needMore _ => 0

/-! ## The instruction decoder -/

/-- The instruction of the BAD_CONT rows for the first continuation byte without the tag `10`, or `none` when
every byte passes. `good` holds the payloads passed so far. -/
def badContOf (lead : Byte) (good : List (BitVec 6)) : List Byte → Option Instr
  | [] => none
  | c :: cs =>
    if isCont c then badContOf lead (good ++ [contBits c]) cs
    else if c &&& 0xC0 == 0x00 then some (.badCont00 lead good (contBits c) cs)
    else if c &&& 0xC0 == 0x40 then some (.badCont01 lead good (contBits c) cs)
    else some (.badCont11 lead good (contBits c) cs)

/-- The decode of a multi-byte format of length `i` whose frame instruction is built by `mk` once all its
continuation bytes are present and pass: NEEDMORE, then BAD_CONT, then the frame (R144, checks 4 to 6). -/
def decodeMulti (i : Nat) (b0 : Byte) (rest : List Byte) (mk : List (BitVec 6) → Instr) : Instr :=
  if rest.length < i - 1 then .needMore b0 rest
  else
    match badContOf b0 [] (rest.take (i - 1)) with
    | some m => m
    | none => mk ((rest.take (i - 1)).map contBits)

/-- The payload of the `k`-th continuation byte, counted from 0. -/
def payloadAt (ps : List (BitVec 6)) (k : Nat) : BitVec 6 := ps.getD k 0

/-- The instruction at the head of a byte list, row by row of the opcode table (R87 to R95). Total; it rejects
the empty list by name. -/
def decodeInstr : List Byte → Except DecodeError Instr
  | [] => .error .emptyBuffer
  | b0 :: rest =>
    match leadClass b0 with
    | .f1 => .ok (.frame1 (b0.extractLsb' 0 7))
    | .f2 => .ok (decodeMulti 2 b0 rest fun p => .frame2 (b0.extractLsb' 0 5 ++ payloadAt p 0))
    | .f3 => .ok (decodeMulti 3 b0 rest fun p => .frame3 (b0.extractLsb' 0 4 ++ payloadAt p 0 ++ payloadAt p 1))
    | .f4 => .ok (decodeMulti 4 b0 rest fun p =>
        .frame4 (b0.extractLsb' 0 3 ++ payloadAt p 0 ++ payloadAt p 1 ++ payloadAt p 2))
    | .f5 => .ok (decodeMulti 5 b0 rest fun p =>
        .frame5 (b0.extractLsb' 0 2 ++ payloadAt p 0 ++ payloadAt p 1 ++ payloadAt p 2 ++ payloadAt p 3))
    | .f6 => .ok (decodeMulti 6 b0 rest fun p =>
        .frame6 (b0.extractLsb' 0 1 ++ payloadAt p 0 ++ payloadAt p 1 ++ payloadAt p 2 ++ payloadAt p 3 ++
          payloadAt p 4))
    | .stray => .ok (.badLead (b0.extractLsb' 0 6))
    | .leadFE => .ok .badLeadFE
    | .leadFF => .ok .badLeadFF

/-- The command word `CMD[8:0]` (R71): bit 8 is `eos`, bits 7 to 0 the data. No command value is reserved. -/
def decodeCmd (w : BitVec 9) : Instr :=
  if w.getLsbD 8 then .inEos (w.extractLsb' 0 8) else .inByte (w.extractLsb' 0 8)

/-- The chunk that a run of command words delivers; an EOS among them is rejected by name (R100, R46). -/
def decodeChunk : List (BitVec 9) → Except DecodeError (List Byte)
  | [] => .ok []
  | w :: ws =>
    if w.getLsbD 8 then .error .eosInChunk
    else
      match decodeChunk ws with
      | .ok C => .ok (w.extractLsb' 0 8 :: C)
      | .error e => .error e

/-- The instruction on a wire. -/
def decodeWire : Wire → Except DecodeError Instr
  | .stream B => decodeInstr B
  | .cmd w => .ok (decodeCmd w)
  | .chunk ws =>
    match decodeChunk ws with
    | .ok C => .ok (.feed C)
    | .error e => .error e
  | .buffer B => .ok (.decode B)
  | .outReady => .ok .outToken
  | .rstPin => .ok .reset

/-- The result each decoder row stands for (R87 to R95); `none` for the operations that are no result of one
decode. -/
def Instr.result : Instr → Option DecodeResult
  | .frame1 v => some (.frame 1 (v.setWidth 31))
  | .frame2 v => some (.frame 2 (v.setWidth 31))
  | .frame3 v => some (.frame 3 (v.setWidth 31))
  | .frame4 v => some (.frame 4 (v.setWidth 31))
  | .frame5 v => some (.frame 5 (v.setWidth 31))
  | .frame6 v => some (.frame 6 v)
  | .badLead _ => some (.malformed .badLead)
  | .badLeadFE => some (.malformed .badLead)
  | .badLeadFF => some (.malformed .badLead)
  | .badCont00 _ _ _ _ => some (.malformed .badCont)
  | .badCont01 _ _ _ _ => some (.malformed .badCont)
  | .badCont11 _ _ _ _ => some (.malformed .badCont)
  | .needMore lead _ => some (.needMore (need lead))
  | .decode B => some (Sys2Proof.decode B)
  | .inByte _ => none
  | .inEos _ => none
  | .outToken => none
  | .reset => none
  | .feed _ => none

/-! ## The encoder -/

/-- A byte `10` followed by a payload (R63, R64). -/
def contByte (p : BitVec 6) : Byte := 0b10#2 ++ p

/-- The bytes of a BAD_CONT instruction, the bad byte's tag given. -/
def badContBytes (tag : BitVec 2) (lead : Byte) (good : List (BitVec 6)) (x : BitVec 6) (after : List Byte) :
    List Byte :=
  lead :: (good.map contByte ++ ((tag ++ x : Byte) :: after))

/-- The command word of one byte (R71). -/
def byteCmd (d : Byte) : BitVec 9 := 0b0#1 ++ d

/-- The words of an instruction: the layouts of R64 for frames, the invalid classes of R61, R71 for commands. -/
def encode : Instr → Wire
  | .frame1 v => .stream [0b0#1 ++ v]
  | .frame2 v => .stream [0b110#3 ++ v.extractLsb' 6 5, contByte (v.extractLsb' 0 6)]
  | .frame3 v =>
    .stream [0b1110#4 ++ v.extractLsb' 12 4, contByte (v.extractLsb' 6 6), contByte (v.extractLsb' 0 6)]
  | .frame4 v =>
    .stream [0b11110#5 ++ v.extractLsb' 18 3, contByte (v.extractLsb' 12 6), contByte (v.extractLsb' 6 6),
      contByte (v.extractLsb' 0 6)]
  | .frame5 v =>
    .stream [0b111110#6 ++ v.extractLsb' 24 2, contByte (v.extractLsb' 18 6), contByte (v.extractLsb' 12 6),
      contByte (v.extractLsb' 6 6), contByte (v.extractLsb' 0 6)]
  | .frame6 v =>
    .stream [0b1111110#7 ++ v.extractLsb' 30 1, contByte (v.extractLsb' 24 6), contByte (v.extractLsb' 18 6),
      contByte (v.extractLsb' 12 6), contByte (v.extractLsb' 6 6), contByte (v.extractLsb' 0 6)]
  | .badLead x => .stream [0b10#2 ++ x]
  | .badLeadFE => .stream [0xFE]
  | .badLeadFF => .stream [0xFF]
  | .badCont00 lead good x after => .stream (badContBytes 0b00#2 lead good x after)
  | .badCont01 lead good x after => .stream (badContBytes 0b01#2 lead good x after)
  | .badCont11 lead good x after => .stream (badContBytes 0b11#2 lead good x after)
  | .needMore lead present => .stream (lead :: present)
  | .decode B => .buffer B
  | .inByte d => .cmd (byteCmd d)
  | .inEos x => .cmd (0b1#1 ++ x)
  | .outToken => .outReady
  | .reset => .rstPin
  | .feed C => .chunk (C.map byteCmd)

/-- `ENC_i(v)` (R73). -/
def enc (i v : Nat) : List Byte :=
  if i = 1 then [BitVec.ofNat 8 v]
  else
    BitVec.ofNat 8 ((((1 <<< i) - 1) <<< (8 - i)) ||| (v >>> (6 * (i - 1)))) ::
      ((List.range (i - 1)).reverse.map fun k => BitVec.ofNat 8 (0x80 ||| ((v >>> (6 * k)) &&& 0x3F)))

/-- The pseudo-frame `HEARTBEAT` (R73). -/
def heartbeat : List Byte := enc 1 0

/-- The pseudo-frame `CHAR(c)` (R73), `none` outside its range. -/
def char (c : Nat) : Option (List Byte) :=
  ([1, 2, 3, 4].find? fun i => decide (c < 2 ^ Config.payloadWidth i)).map fun i => enc i c

/-- `sm13` (R73): 13-bit sign and magnitude. -/
def sm13 (d : Int) : Nat := if 0 ≤ d then d.toNat else 0x1000 ||| (-d).toNat

/-- The pseudo-frame `MOVE(dx, dy)` (R73), `none` outside its range. -/
def move (dx dy : Int) : Option (List Byte) :=
  if dx.natAbs ≤ 4095 ∧ dy.natAbs ≤ 4095 then some (enc 5 ((sm13 dx <<< 13) ||| sm13 dy)) else none

/-- The pseudo-frame `KEY(n)` (R73), `none` outside its range. -/
def key (n : Nat) : Option (List Byte) := if n < 2 ^ 31 then some (enc 6 n) else none

/-! ## The token word -/

/-- `out_cause` (R29). -/
def causeCode : Cause → BitVec 1
  | .badLead => 0
  | .badCont => 1

/-- `len` of a token (R11). -/
def Token.len : Token → Nat
  | .frameTok l _ => l
  | .malTok _ _ => 1

/-- `TOKEN[35:0] = { kind, cause, len, value }` (R70, R29). -/
def packToken : Token → BitVec 36
  | .frameTok l v => 0#1 ++ 0#1 ++ BitVec.ofNat 3 l ++ v
  | .malTok c b => 1#1 ++ causeCode c ++ 1#3 ++ b.setWidth 31

/-- The token a word carries; `none` for the combinations R70 says the block never produces. -/
def unpackToken (w : BitVec 36) : Option Token :=
  let kind := w.extractLsb' 35 1
  let cause := w.extractLsb' 34 1
  let len := (w.extractLsb' 31 3).toNat
  let value : Value := w.extractLsb' 0 31
  if kind = 0 then
    if cause = 0 ∧ 1 ≤ len ∧ len ≤ 6 ∧ value.toNat < 2 ^ Config.payloadWidth len then
      some (.frameTok len value)
    else none
  else if len = 1 ∧ value.toNat ≤ 0xFF then
    let b : Byte := value.extractLsb' 0 8
    if cause = 0 then (if leadLen b = none then some (.malTok .badLead b) else none)
    else if (0xC0 ≤ value.toNat ∧ value.toNat ≤ 0xFD) then some (.malTok .badCont b)
    else none
  else none

/-- What R70 says of every token the block produces. -/
def Token.legal : Token → Bool
  | .frameTok l v => decide (1 ≤ l ∧ l ≤ 6 ∧ v.toNat < 2 ^ Config.payloadWidth l)
  | .malTok .badLead b => decide ((0x80 ≤ b.toNat ∧ b.toNat ≤ 0xBF) ∨ b.toNat = 0xFE ∨ b.toNat = 0xFF)
  | .malTok .badCont b => decide (0xC0 ≤ b.toNat ∧ b.toNat ≤ 0xFD)

/-! ## The opcode table's words -/

/-- The first `n` bytes of a number, least significant first: the order of a table word's bytes in the
stream. -/
def tableBytes : Nat → Nat → List Byte
  | 0, _ => []
  | n + 1, w => BitVec.ofNat 8 w :: tableBytes n (w / 256)

/-- A stream word of the table as the bytes of its frame. A row gives the lead byte only, and its `applies_to`
says that the continuation bytes carry the tag `10` and are all present; their operand bits, which the row gives
no place, are zeros: each missing continuation byte is `10 000000` (log 10). -/
def padFrame : List Byte → List Byte
  | [] => []
  | b0 :: rest => b0 :: (rest ++ List.replicate (need b0 - 1 - rest.length) (contByte 0))

/-- Whether a table word is a command word: more than one byte's bits, and no bit above `CMD[8]` (log 10). -/
def isCmdWord (nbits w : Nat) : Bool := decide (8 < nbits ∧ nbits ≤ 16 ∧ w < 512)

/-- The bytes of a table word that is a stream word; at most the six bytes of the longest frame. -/
def tableStream (nbits w : Nat) : List Byte := padFrame (tableBytes (min ((nbits + 7) / 8) 6) w)

/-- The instruction the decoder reads from a table word (log 10). -/
def decodeTableWord (nbits w : Nat) : Option Instr :=
  if isCmdWord nbits w then some (decodeCmd (BitVec.ofNat 9 w))
  else
    match decodeInstr (tableStream nbits w) with
    | .ok i => some i
    | .error _ => none

end Sys2Proof
end

