-- ==== Sys2Proof/WellFormed.lean ====
section
/-! DEFINITION. Which instruction terms stand for something on the wire. The widths of the operands are checked by
their types; what is left is the shape of the BAD_CONT and NEEDMORE rows (R94, R95). -/

namespace Sys2Proof

/-- `lead` declares 2 to 6 bytes, and `n` bytes after it are exactly the rest of its frame (R94: all `i` bytes
are present). -/
def fillsFrame (lead : Byte) (n : Nat) : Bool :=
  match leadLen lead with
  | some i => decide (2 ≤ i ∧ n + 1 = i)
  | none => false

/-- `lead` declares 2 to 6 bytes, and `n` bytes after it are fewer than the rest of its frame (R95). -/
def fallsShort (lead : Byte) (n : Nat) : Bool :=
  match leadLen lead with
  | some i => decide (2 ≤ i ∧ n + 1 < i)
  | none => false

/-- The check, constructor by constructor. -/
def WellFormed : Instr → Bool
  | .frame1 _ => true
  | .frame2 _ => true
  | .frame3 _ => true
  | .frame4 _ => true
  | .frame5 _ => true
  | .frame6 _ => true
  | .badLead _ => true
  | .badLeadFE => true
  | .badLeadFF => true
  | .badCont00 lead good _ after => fillsFrame lead (good.length + 1 + after.length)
  | .badCont01 lead good _ after => fillsFrame lead (good.length + 1 + after.length)
  | .badCont11 lead good _ after => fillsFrame lead (good.length + 1 + after.length)
  | .needMore lead present => fallsShort lead present.length
  | .decode _ => true
  | .inByte _ => true
  | .inEos _ => true
  | .outToken => true
  | .reset => true
  | .feed _ => true

end Sys2Proof
end

