-- ==== Sys2Proof/Machine/State.lean ====
section
/-! DEFINITION. The state of XFD as plain data, the reasons a step can stop, and the state after reset
(10_state.md). The block's own state is `hold` alone (R20); every other field is the model's (INVENTORY.md). -/

namespace Sys2Proof.Machine

/-- One sample of the five input lines (R25, R26, R27). -/
structure Pins where
  /-- Reset, which is also session start (R27, R160). -/
  rst : Bool
  /-- The upstream offers a command (R25). -/
  inValid : Bool
  /-- The command is an end of stream (R25). -/
  inEos : Bool
  /-- The stream byte; ignored by an end of stream (R25). -/
  inData : Byte
  /-- The consumer will take a token (R26). -/
  outReady : Bool
  deriving DecidableEq, Repr

/-- A command on the input channel (R25, R71). -/
structure Command where
  eos : Bool
  data : Byte
  deriving DecidableEq, Repr

/-- What FEED returns: `(toks, R', consumed, need)` (R100). -/
structure FeedResult where
  toks : List Token
  retained : List Byte
  consumed : Nat
  need : Nat
  deriving DecidableEq, Repr

/-- Why the machine stops. -/
inductive Fault where
  /-- Raised by `step` alone: the upstream shows another command than the one it offered before, while that one
  has not transferred (R49, R169). 93_implementation_defined.md I5 gives the treatment `stuck`: an environment
  fault, not block behaviour. Safe: the hardware would go on (log 6). -/
  | commandChanged
  deriving DecidableEq, Repr

/-- Why an instruction has no meaning. -/
inductive Refusal where
  /-- Raised by an arm of `exec` that has no meaning yet; no arm is such an arm. Safe. -/
  | notModelled (mnemonic : String)
  deriving DecidableEq, Repr

/-- The machine. -/
structure State where
  /-- H, the hold buffer: the block's only state (R20). -/
  hold : List Byte
  /-- The coming samples of the input lines, next first; with none left the lines are low (log 2). -/
  inputs : List Pins
  /-- The command offered and not yet transferred, which the upstream must hold (R49; log 6). -/
  offered : Option Command
  /-- Ghost: the bytes accepted since the session began, R109's `S` (log 4). -/
  accepted : List Byte
  /-- Ghost: the number of bytes consumed since the session began (R22; log 4). -/
  pos : Nat
  /-- The tokens the consumer received in this session, oldest first (R104 `emit`; log 4). -/
  tokens : List Token
  /-- The tokens the consumer received in the sessions before, oldest first (log 4). -/
  earlier : List Token
  /-- The result `decode` returned last in this session (log 5). -/
  decoded : Option DecodeResult
  /-- What FEED returned last in this session (log 5). -/
  fed : Option FeedResult
  /-- A counter of steps, the index of the free value of the token lines (log 7). -/
  tick : Nat
  deriving DecidableEq, Repr

/-- After reset: H is empty (R33). The model's own fields are at the values of logs 2 and 4 to 7. -/
def State.reset : State where
  hold := []
  inputs := []
  offered := none
  accepted := []
  pos := 0
  tokens := []
  earlier := []
  decoded := none
  fed := none
  tick := 0

end Sys2Proof.Machine
end

