-- ==== Sys2Proof/Machine/Flags.lean ====
section
/-! DEFINITION. The output lines of the block: functions of H alone (10_state.md R27 to R31). The block has no flags
register; these are its status flags. -/

namespace Sys2Proof.Machine

/-- `resolvable(H)` (R28): H is non-empty and decodes to something other than NeedMore. -/
def resolvable (H : List Byte) : Bool :=
  match H with
  | [] => false
  | _ :: _ =>
    match decode H with
    | .needMore _ => false
    | _ => true

/-- `out_valid` (R28). -/
def outValid (H : List Byte) : Bool := resolvable H

/-- `in_ready` (R28). -/
def inReady (H : List Byte) : Bool := !resolvable H

/-- `hold_count` (R27). -/
def holdCount (H : List Byte) : BitVec 3 := BitVec.ofNat 3 H.length

/-- The `i` of a NeedMore(i) on a non-empty H, otherwise 0 (R27). -/
def needLenNat (H : List Byte) : Nat :=
  match H with
  | [] => 0
  | _ :: _ =>
    match decode H with
    | .needMore i => i
    | _ => 0

/-- `need_len` (R27). -/
def needLen (H : List Byte) : BitVec 3 := BitVec.ofNat 3 (needLenNat H)

/-- The STATUS word (R30): `in_ready`, `out_valid`, `need_len`, `hold_count`, from bit 7 down. -/
def statusWord (H : List Byte) : BitVec 8 :=
  BitVec.ofBool (inReady H) ++ BitVec.ofBool (outValid H) ++ needLen H ++ holdCount H

/-- `token(r, b0)` (R97): no token for NeedMore. -/
def tokenOf (r : DecodeResult) (b0 : Byte) : Option Token :=
  match r with
  | .frame l v => some (.frameTok l v)
  | .malformed c => some (.malTok c b0)
  | .needMore _ => none

/-- The token on offer: `token(decode(H), H[0])` while `out_valid = 1` (R29, R97), else none. -/
def offeredToken (H : List Byte) : Option Token :=
  match H with
  | [] => none
  | b0 :: _ => tokenOf (decode H) b0

/-- The 36 token lines (R29, R70): the offered token's word while `out_valid = 1`, otherwise a free value
(I1; log 7). -/
def tokenLines (s : State) : BitVec 36 :=
  match offeredToken s.hold with
  | some t => packToken t
  | none => Config.idleTokenWord s.tick

end Sys2Proof.Machine
end

