-- ==== Sys2Proof/Machine/Operands.lean ====
section
/-! DEFINITION. Where the operations find their operands: the sample of the input lines, the command on the input
channel, the frame at the head of H. (The bit fields of a frame are taken apart once, in Decode.lean.) -/

namespace Sys2Proof.Machine

/-- All lines low: nothing offered, nothing taken, no reset. -/
def idlePins : Pins := ⟨false, false, false, 0, false⟩

/-- The sample the next step reads (log 2). -/
def State.pins (s : State) : Pins := s.inputs.headD idlePins

/-- The command on the lines of a sample (R25). -/
def Pins.command (p : Pins) : Command := ⟨p.inEos, p.inData⟩

/-- `CMD[8:0]` (R71). -/
def Command.word (c : Command) : BitVec 9 := BitVec.ofBool c.eos ++ c.data

/-- The sample in which the upstream offers one byte. -/
def bytePins (d : Byte) : Pins := ⟨false, true, false, d, false⟩

/-- The sample in which the upstream offers an end of stream. -/
def eosPins (x : Byte) : Pins := ⟨false, true, true, x, false⟩

/-- The sample in which the consumer alone is ready. -/
def takePins : Pins := ⟨false, false, false, 0, true⟩

/-- The sample with the reset pin high. -/
def rstPins : Pins := ⟨true, false, false, 0, false⟩

end Sys2Proof.Machine
end

