-- ==== Sys2Proof/Machine/Ops.lean ====
section
/-! DEFINITION. The named operations on the state that the meanings share: the buffer primitives of R41, delivering a
token (R104), taking the MALFORMED exception (R145), ending a session (R105, R160, R162), and the event a sample of
the lines selects (R28, R49, R160). There is no return from an exception (R147). -/

namespace Sys2Proof.Machine

/-- Note the result that `decode` returned (log 5). -/
def noteDecoded (r : DecodeResult) (s : State) : State := { s with decoded := some r }

/-- R104: `emit(t)`, then `H <- drop(len(t), H)`. -/
def deliver (t : Token) (s : State) : State :=
  { s with
    hold := s.hold.drop t.len
    pos := s.pos + t.len
    tokens := s.tokens ++ [t] }

/-- Taking the MALFORMED exception (R145): `MalTok(cause, byte)` goes out in stream order, exactly one byte is
dropped, decoding resumes at the next. Nothing is saved; there is no handler, vector or mode. -/
def takeMalformed (c : Cause) (b : Byte) (s : State) : State := deliver (.malTok c b) s

/-- Run a decode result at the frame start whose lead byte is `b0` (R22, R97, R145): a frame's token is
delivered, a malformed byte takes the exception, NeedMore consumes and emits nothing (R143). -/
def runResult (r : DecodeResult) (b0 : Byte) (s : State) : State :=
  match r with
  | .frame l v => deliver (.frameTok l v) (noteDecoded r s)
  | .malformed c => takeMalformed c b0 (noteDecoded r s)
  | .needMore _ => noteDecoded r s

/-- R103: `H <- H ++ [b]`; the command has transferred. -/
def acceptByte (b : Byte) (s : State) : State :=
  { s with
    hold := s.hold ++ [b]
    accepted := s.accepted ++ [b]
    offered := none }

/-- A session boundary (R162): `H <- []`, no token. The records of the session start afresh (log 4, log 5). -/
def endSession (s : State) : State :=
  { s with
    hold := []
    accepted := []
    pos := 0
    tokens := []
    earlier := s.earlier ++ s.tokens
    decoded := none
    fed := none }

/-- The command is offered and does not transfer (R49): it stays offered (log 8). -/
def keepOffered (c : Command) (s : State) : State := { s with offered := some c }

/-- The command has transferred. -/
def takeOffered (s : State) : State := { s with offered := none }

/-- Read the next sample: the lines move on, and a command on them is offered. -/
def sample (s : State) : State :=
  { s with
    inputs := s.inputs.tail
    offered := if s.pins.inValid then some s.pins.command else s.offered
    tick := s.tick + 1 }

/-- The upstream has changed a command it offered before that command transferred (R49, R169, I5; log 6).
Reset is enabled always (R160), so a sample with `rst` high is no such case. -/
def commandChanged (s : State) : Bool :=
  match s.offered with
  | none => false
  | some c => !s.pins.rst && s.pins.inValid && s.pins.command != c

/-- The event of a sample (R55, R170): `rst` wins (R160, D11); while `out_valid = 1` only OUT_TOKEN can happen;
while `in_ready = 1` a command offered transfers (R28, R49). With no transfer, an incomplete frame at the head
of H is a NEEDMORE (R95), and an empty block waits (R155). -/
def event (p : Pins) (H : List Byte) : Option Instr :=
  if p.rst then some .reset
  else if outValid H then (if p.outReady then some .outToken else none)
  else if p.inValid then some (decodeCmd p.command.word)
  else
    match decodeInstr H with
    | .ok i => some i
    | .error _ => none

/-- FEED's loop over the rest of the buffer (R100); `fuel` is any bound on the bytes left. Each turn decodes at
the current offset, and the offset's advance is the `drop`. -/
def feedLoop : Nat → List Byte → FeedResult
  | 0, buf => ⟨[], buf, 0, 0⟩
  | _ + 1, [] => ⟨[], [], 0, 0⟩
  | fuel + 1, b0 :: rest =>
    match decode (b0 :: rest) with
    | .frame l v =>
      let r := feedLoop fuel ((b0 :: rest).drop l)
      ⟨.frameTok l v :: r.toks, r.retained, l + r.consumed, r.need⟩
    | .malformed c =>
      let r := feedLoop fuel ((b0 :: rest).drop 1)
      ⟨.malTok c b0 :: r.toks, r.retained, 1 + r.consumed, r.need⟩
    | .needMore i => ⟨[], b0 :: rest, 0, i⟩

/-- `FEED(R, C)` (R100). -/
def feed (R C : List Byte) : FeedResult := feedLoop (R ++ C).length (R ++ C)

/-- FEED as a transaction on the state, with R = H (log 9). -/
def runFeed (C : List Byte) (s : State) : State :=
  let r := feed s.hold C
  { s with
    hold := r.retained
    accepted := s.accepted ++ C
    pos := s.pos + r.consumed
    tokens := s.tokens ++ r.toks
    fed := some r }

/-- Put the bytes of a stream instruction at the frame start and let the consumer be ready (log 10). -/
def placeStream (B : List Byte) (s : State) : State :=
  { s with
    hold := B
    inputs := takePins :: s.inputs }

/-- Put a command on the input channel of a block that is ready for it (log 10). -/
def placeCommand (c : Command) (s : State) : State :=
  { s with
    hold := if resolvable s.hold then [] else s.hold
    offered := none
    inputs := ⟨false, true, c.eos, c.data, false⟩ :: s.inputs }

/-- Put a table word where the next step reads its instruction (log 3, log 10). -/
def placeTableWord (nbits w : Nat) (s : State) : State :=
  if isCmdWord nbits w then placeCommand ⟨w.testBit 8, BitVec.ofNat 8 w⟩ s
  else placeStream (tableStream nbits w) s

end Sys2Proof.Machine
end

