-- ==== Sys2Proof/Machine/Frames.lean ====
section
/-! DEFINITION. The meanings of FRAME1 to FRAME6 (R87 to R92): the frame at the frame start decodes to
`Frame(i, value)`, and that result is run (R22, R97, R104; log 1). The lead byte is not part of a frame's token, so
`runResult` is given 0 for it. -/

namespace Sys2Proof.Machine

/-- FRAME1 (R87): `Frame(1, zext_31(B[0][6:0]))`. -/
def execFrame1 (v : BitVec 7) (s : State) : Host.Outcome State Fault Refusal :=
  .next (runResult (.frame 1 (v.setWidth 31)) 0 s)

/-- FRAME2 (R88): an 11-bit value. -/
def execFrame2 (v : BitVec 11) (s : State) : Host.Outcome State Fault Refusal :=
  .next (runResult (.frame 2 (v.setWidth 31)) 0 s)

/-- FRAME3 (R89): a 16-bit value. -/
def execFrame3 (v : BitVec 16) (s : State) : Host.Outcome State Fault Refusal :=
  .next (runResult (.frame 3 (v.setWidth 31)) 0 s)

/-- FRAME4 (R90): a 21-bit value, with no range check (R67). -/
def execFrame4 (v : BitVec 21) (s : State) : Host.Outcome State Fault Refusal :=
  .next (runResult (.frame 4 (v.setWidth 31)) 0 s)

/-- FRAME5 (R91): a 26-bit value, not split by the block. -/
def execFrame5 (v : BitVec 26) (s : State) : Host.Outcome State Fault Refusal :=
  .next (runResult (.frame 5 (v.setWidth 31)) 0 s)

/-- FRAME6 (R92): a 31-bit value, with no index range check. -/
def execFrame6 (v : BitVec 31) (s : State) : Host.Outcome State Fault Refusal :=
  .next (runResult (.frame 6 v) 0 s)

end Sys2Proof.Machine
end

