-- ==== Sys2Proof/Machine/Outcomes.lean ====
section
/-! DEFINITION. The meanings of the outcomes of a decode that are no frame, BAD_LEAD, BAD_CONT and NEEDMORE (R93 to
R95), and of DECODE itself (R80). -/

namespace Sys2Proof.Machine

/-- BAD_LEAD, row `10xxxxxx` (R93, R141): the recorded byte is the lead byte. -/
def execBadLead (x : BitVec 6) (s : State) : Host.Outcome State Fault Refusal :=
  .next (runResult (.malformed .badLead) (0b10#2 ++ x) s)

/-- BAD_LEAD, row `11111110` (R93). -/
def execBadLeadFE (s : State) : Host.Outcome State Fault Refusal :=
  .next (runResult (.malformed .badLead) 0xFE s)

/-- BAD_LEAD, row `11111111` (R93). -/
def execBadLeadFF (s : State) : Host.Outcome State Fault Refusal :=
  .next (runResult (.malformed .badLead) 0xFF s)

/-- BAD_CONT, row `00xxxxxx` (R94, R142): the recorded byte is the lead byte, whatever the bad byte and the bytes
around it; only the lead byte is discarded. -/
def execBadCont00 (lead : Byte) (s : State) : Host.Outcome State Fault Refusal :=
  .next (runResult (.malformed .badCont) lead s)

/-- BAD_CONT, row `01xxxxxx` (R94, R142). -/
def execBadCont01 (lead : Byte) (s : State) : Host.Outcome State Fault Refusal :=
  .next (runResult (.malformed .badCont) lead s)

/-- BAD_CONT, row `11xxxxxx` (R94, R142). -/
def execBadCont11 (lead : Byte) (s : State) : Host.Outcome State Fault Refusal :=
  .next (runResult (.malformed .badCont) lead s)

/-- NEEDMORE (R95, R143): `NeedMore(i)` with the declared length `i`; nothing is consumed, no token goes out. -/
def execNeedMore (lead : Byte) (s : State) : Host.Outcome State Fault Refusal :=
  .next (runResult (.needMore (need lead)) lead s)

/-- DECODE (R80): returns `decode(B)` and writes nothing. -/
def execDecode (B : List Byte) (s : State) : Host.Outcome State Fault Refusal :=
  .next (noteDecoded (decode B) s)

end Sys2Proof.Machine
end

