-- ==== Sys2Proof/Machine/Ports.lean ====
section
/-! DEFINITION. The meanings of the port operations IN_BYTE, OUT_TOKEN, IN_EOS (41_reassembler.md R103 to R105), of
RESET (70_reset_and_hazards.md R160) and of the transaction FEED (R100). An operation that is not enabled does not
transfer: it waits (log 8). -/

namespace Sys2Proof.Machine

/-- IN_BYTE (R103), enabled when `in_ready = 1`. -/
def execInByte (d : Byte) (s : State) : Host.Outcome State Fault Refusal :=
  if inReady s.hold then .next (acceptByte d s) else .next (keepOffered ⟨false, d⟩ s)

/-- IN_EOS (R105), enabled when `in_ready = 1`; its data bits are ignored. -/
def execInEos (x : Byte) (s : State) : Host.Outcome State Fault Refusal :=
  if inReady s.hold then .next (takeOffered (endSession s)) else .next (keepOffered ⟨true, x⟩ s)

/-- OUT_TOKEN (R104), enabled when `out_valid = 1`: `t = token(decode(H), H[0])` is delivered. -/
def execOutToken (s : State) : Host.Outcome State Fault Refusal :=
  if outValid s.hold then .next (runResult (decode s.hold) (s.hold.headD 0) s) else .next s

/-- RESET (R160), enabled always: `H <- []`. -/
def execReset (s : State) : Host.Outcome State Fault Refusal := .next (endSession s)

/-- FEED (R100). -/
def execFeed (C : List Byte) (s : State) : Host.Outcome State Fault Refusal := .next (runFeed C s)

end Sys2Proof.Machine
end

