-- ==== Sys2Proof/Machine/Dispatch.lean ====
section
/-! DEFINITION. The dispatch of an instruction to its meaning, one arm per constructor. -/

namespace Sys2Proof.Machine

def exec (i : Instr) (s : State) : Host.Outcome State Fault Refusal :=
  match i with
  | .frame1 v => Sys2Proof.Machine.execFrame1 v s
  | .frame2 v => Sys2Proof.Machine.execFrame2 v s
  | .frame3 v => Sys2Proof.Machine.execFrame3 v s
  | .frame4 v => Sys2Proof.Machine.execFrame4 v s
  | .frame5 v => Sys2Proof.Machine.execFrame5 v s
  | .frame6 v => Sys2Proof.Machine.execFrame6 v s
  | .badLead x => Sys2Proof.Machine.execBadLead x s
  | .badLeadFE => Sys2Proof.Machine.execBadLeadFE s
  | .badLeadFF => Sys2Proof.Machine.execBadLeadFF s
  | .badCont00 lead _ _ _ => Sys2Proof.Machine.execBadCont00 lead s
  | .badCont01 lead _ _ _ => Sys2Proof.Machine.execBadCont01 lead s
  | .badCont11 lead _ _ _ => Sys2Proof.Machine.execBadCont11 lead s
  | .needMore lead _ => Sys2Proof.Machine.execNeedMore lead s
  | .decode B => Sys2Proof.Machine.execDecode B s
  | .inByte d => Sys2Proof.Machine.execInByte d s
  | .inEos x => Sys2Proof.Machine.execInEos x s
  | .outToken => Sys2Proof.Machine.execOutToken s
  | .reset => Sys2Proof.Machine.execReset s
  | .feed C => Sys2Proof.Machine.execFeed C s

end Sys2Proof.Machine
end

