-- ==== Sys2Proof/Machine/Step.lean ====
section
/-! DEFINITION. One step of the machine: one sample of the input lines and the event it selects (70_reset_and_hazards.md
R170, 20_memory.md R55). -/

namespace Sys2Proof.Machine

/-- Read the next sample and run its event; with no event the block waits (R155). An upstream that changes an
offered command leaves the machine stuck (I5). -/
def step (s : State) : Host.Outcome State Fault Refusal :=
  if commandChanged s then .fault .commandChanged
  else
    match event s.pins s.hold with
    | some i => exec i (sample s)
    | none => .next (sample s)

/-- The state with a table word's instruction where the next step reads it (log 10). -/
def State.withFetchWord (s : State) (nbits w : Nat) : State := placeTableWord nbits w s

end Sys2Proof.Machine
end

