-- ==== Sys2Proof/Machine/Consumer.lean ====
section
/-! DEFINITION. The consumer's reading of a token (44_consumer_boundary.md R121 to R125), as functions of the token
alone. It is outside the block (R4): no field of State holds any of it, `step` never calls it, and the modifier slot
(R126) is left out (log 13). It is here so that the source's worked examples can be held against the tokens. -/

namespace Sys2Proof.Machine

/-- R121's four classes. -/
inductive TokenClass where
  | char | motion | index | malformed
  deriving DecidableEq, Repr

/-- R121: the length is the only type tag (R120). `none` for a length no token has. -/
def tokenClass : Token → Option TokenClass
  | .frameTok l _ =>
    if 1 ≤ l ∧ l ≤ 4 then some .char else if l = 5 then some .motion else if l = 6 then some .index else none
  | .malTok _ _ => some .malformed

/-- What the consumer does with a token, before its modifier slot (R126) wraps a key emission. -/
inductive Action where
  | heartbeat
  | enter
  | typeChar (codePoint : Value)
  | moveBy (dx dy : Int)
  | clickLeft | clickMiddle | clickRight
  | scroll (n : Int)
  | modifierCtrl | modifierSuper | modifierAlt
  | specialKey (keyName : Nat)
  | reservedSlot
  | pressLeft
  | releaseLeft
  | unknownIndex
  | logMalformed (cause : Cause) (byte : Byte)
  deriving DecidableEq, Repr

/-- R123's `sm`: bit 12 is the sign, bits 11 to 0 the magnitude. -/
def signMagnitude (f : BitVec 13) : Int :=
  if f.getLsbD 12 then -((f.extractLsb' 0 12).toNat : Int) else ((f.extractLsb' 0 12).toNat : Int)

/-- R123: `distX_raw = value >> 13`, `distY_raw = value & 0x1FFF`. -/
def motionOf (v : Value) : Int × Int :=
  (signMagnitude (v.extractLsb' 13 13), signMagnitude (v.extractLsb' 0 13))

/-- R124: the flat index into six tables laid end to end. -/
def indexAction (n : Nat) : Action :=
  if n = 0 then .clickLeft
  else if n = 1 then .clickMiddle
  else if n = 2 then .clickRight
  else if n = 3 then .scroll 1
  else if n = 4 then .scroll (-1)
  else if n = 5 then .modifierCtrl
  else if n = 6 then .modifierSuper
  else if n = 7 then .modifierAlt
  else if n ≤ 34 then
    match Config.specialKeyTable (Fin.ofNat 27 (n - 8)) with
    | some k => .specialKey k
    | none => .reservedSlot
  else if n = 35 then .pressLeft
  else if n = 36 then .releaseLeft
  else .unknownIndex

/-- R122: a CHAR by its value, with no range check. -/
def charAction (v : Value) : Action :=
  if v = 0 then .heartbeat else if v = 0x0A then .enter else .typeChar v

/-- R121 to R125 together. -/
def interpret (t : Token) : Option Action :=
  match t with
  | .malTok c b => some (.logMalformed c b)
  | .frameTok _ v =>
    match tokenClass t with
    | some .char => some (charAction v)
    | some .motion => let m := motionOf v; some (.moveBy m.1 m.2)
    | some .index => some (indexAction v.toNat)
    | _ => none

end Sys2Proof.Machine
end

