-- ==== Sys2Proof/Safety.lean ====
section
/-! DEFINITION. The terms in which claims are made: the stream-level meaning of a session (41_reassembler.md R109), the
invariant of a session (R20, R109, R110), what two states of the block have in common, drains, and the input that
delivers a chunk byte by byte (R107). -/

namespace Sys2Proof.Safety

open Sys2Proof.Machine

/-- R109's chain of frame starts: from a byte list `S`, while it is resolvable its token comes off the front;
`FrameStarts S ts R` says that the tokens are `ts` and that `R` is what is left at `p*`. -/
inductive FrameStarts : List Byte → List Token → List Byte → Prop where
  | stop (S : List Byte) : resolvable S = false → FrameStarts S [] S
  | next (S : List Byte) (t : Token) (ts : List Token) (R : List Byte) :
      offeredToken S = some t → FrameStarts (S.drop t.len) ts R → FrameStarts S (t :: ts) R

/-- What holds of a session at every step. -/
structure SessionInv (s : State) : Prop where
  /-- R20: the hold buffer keeps its capacity. -/
  bound : s.hold.length ≤ Config.holdCap
  /-- No more bytes are consumed than were accepted (R101 (d), R166). -/
  within : s.pos ≤ s.accepted.length
  /-- H is the accepted bytes not yet consumed: none lost, none twice (R43, R110). -/
  held : s.accepted.drop s.pos = s.hold
  /-- Every consumed byte went out in a token (R110). -/
  counted : (s.tokens.map Token.len).sum = s.pos
  /-- Every token is one the block may produce (R70). -/
  legal : ∀ t ∈ s.tokens, t.legal = true
  /-- Whatever H still yields, the session's tokens and then those are the tokens of the accepted bytes, in
  frame-start order (R50, R109). -/
  stream : ∀ ts R, FrameStarts s.hold ts R → FrameStarts s.accepted (s.tokens ++ ts) R

/-- Every token the consumer has received, oldest first. -/
def delivered (s : State) : List Token := s.earlier ++ s.tokens

/-- The two states are the same to the block and its environment: H, the coming input, the command on offer. -/
def SameBlock (s t : State) : Prop := s.hold = t.hold ∧ s.inputs = t.inputs ∧ s.offered = t.offered

/-- The outcome is a next state with the property. -/
def Answers (o : Host.Outcome State Fault Refusal) (P : State → Prop) : Prop := ∃ t, o = .next t ∧ P t

/-- `n` OUT_TOKEN operations one after another. -/
def takeTokens : Nat → State → Host.Outcome State Fault Refusal
  | 0, s => .next s
  | n + 1, s =>
    match exec .outToken s with
    | .next t => takeTokens n t
    | .fault r => .fault r
    | .refused r => .refused r

/-- The samples that offer a chunk byte by byte, each byte followed by as many samples with the consumer ready as
the longest drain can take (R106, R107). -/
def serialInputs (C : List Byte) : List Pins :=
  C.flatMap fun d => bytePins d :: List.replicate Config.maxTokensPerByte takePins

/-- Feeding chunks in order from a retained buffer (R108): all tokens, the last retained buffer, the total
consumed. -/
def feedChunks : List Byte → List (List Byte) → List Token × List Byte × Nat
  | R, [] => ([], R, 0)
  | R, C :: Cs =>
    let r := feed R C
    let rest := feedChunks r.retained Cs
    (r.toks ++ rest.1, rest.2.1, r.consumed + rest.2.2)

end Sys2Proof.Safety
end

