-- ==== Sys2Proof/Certificates/Slice0/Obligations.lean ====
section
/-! DEFINITION. The statements for the provers. Each docstring names the rules of spec/ it formalises. No statement
rests on a value of the model's own choosing unless its docstring says so and names the log entry. -/

open Sys2Proof Sys2Proof.Machine Sys2Proof.Safety

/-! ## The wire format (30_encoding.md) -/

/-- R62: the length extractor, in both of the rule's forms, on every byte. -/
def Obligations.LeadLengthBothForms : Prop :=
  ∀ b : Byte,
    leadLen b =
      (if b &&& 0x80 = 0x00 then some 1
       else if b &&& 0xE0 = 0xC0 then some 2
       else if b &&& 0xF0 = 0xE0 then some 3
       else if b &&& 0xF8 = 0xF0 then some 4
       else if b &&& 0xFC = 0xF8 then some 5
       else if b &&& 0xFE = 0xFC then some 6
       else none) ∧
    (leadLen b = some 1 ↔ b.getLsbD 7 = false) ∧
    ∀ i, 2 ≤ i → i ≤ 6 →
      (leadLen b = some i ↔
        (∀ k, 8 - i ≤ k → k ≤ 7 → b.getLsbD k = true) ∧ b.getLsbD (7 - i) = false)

/-- R61 (classes, patterns, value ranges and declared lengths of its table): exactly one row fits each byte. -/
def Obligations.LeadClassesPartitionTheBytes : Prop :=
  ∀ b : Byte,
    (∃ r ∈ leadRows, r.fits b = true ∧ r.cls = leadClass b ∧ ∀ q ∈ leadRows, q.fits b = true → q = r) ∧
    leadClass b =
      (if b.toNat ≤ 0x7F then .f1
       else if b.toNat ≤ 0xBF then .stray
       else if b.toNat ≤ 0xDF then .f2
       else if b.toNat ≤ 0xEF then .f3
       else if b.toNat ≤ 0xF7 then .f4
       else if b.toNat ≤ 0xFB then .f5
       else if b.toNat ≤ 0xFD then .f6
       else if b.toNat = 0xFE then .leadFE
       else .leadFF) ∧
    leadLen b =
      (match leadClass b with
       | .f1 => some 1 | .f2 => some 2 | .f3 => some 3 | .f4 => some 4 | .f5 => some 5 | .f6 => some 6
       | .stray => none | .leadFE => none | .leadFF => none)

/-- R63: what a continuation byte is, its payload, and that it never starts a frame. -/
def Obligations.ContinuationBytes : Prop :=
  ∀ c : Byte,
    (isCont c = true ↔ c &&& 0xC0 = 0x80) ∧
    (isCont c = true ↔ c.extractLsb' 6 2 = 0b10#2) ∧
    (isCont c = true ↔ 0x80 ≤ c.toNat ∧ c.toNat ≤ 0xBF) ∧
    (isCont c = true ↔ leadClass c = .stray) ∧
    (isCont c = true → leadLen c = none) ∧
    contBits c = c.extractLsb' 0 6

/-- R65: the payload widths, and that an `i`-byte frame's values are exactly those below `2^P(i)`. -/
def Obligations.PayloadWidthsAreExact : Prop :=
  (Config.payloadWidth 1 = 7 ∧ Config.payloadWidth 2 = 11 ∧ Config.payloadWidth 3 = 16 ∧
    Config.payloadWidth 4 = 21 ∧ Config.payloadWidth 5 = 26 ∧ Config.payloadWidth 6 = 31) ∧
  (∀ i, Config.payloadWidth i = Config.leadPayload i + 6 * (i - 1)) ∧
  (∀ B l v, decode B = .frame l v → 1 ≤ l ∧ l ≤ 6 ∧ v.toNat < 2 ^ Config.payloadWidth l) ∧
  (∀ i v, 1 ≤ i → i ≤ 6 → v < 2 ^ Config.payloadWidth i → ∃ B, decode B = .frame i (BitVec.ofNat 31 v))

/-- R66: the value of a frame, big-endian in stream order, by arithmetic on the bytes. -/
def Obligations.FrameValueIsBigEndian : Prop :=
  ∀ B l v, decode B = .frame l v →
    (l = 1 → v.toNat = (B.getD 0 0).toNat ∧ v.toNat = (B.getD 0 0).toNat % 128) ∧
    (2 ≤ l →
      v.toNat =
        (B.getD 0 0).toNat % 2 ^ (7 - l) * 64 ^ (l - 1) +
          ((List.range (l - 1)).map fun j => (B.getD (j + 1) 0).toNat % 64 * 64 ^ (l - 2 - j)).sum)

/-- R71: every one of the 512 command words, none of them reserved. -/
def Obligations.CommandWords : Prop :=
  (∀ d : Byte, decodeCmd (0b0#1 ++ d) = .inByte d ∧ decodeCmd (0b1#1 ++ d) = .inEos d) ∧
  (∀ w : BitVec 9, ∃ d : Byte, decodeCmd w = .inByte d ∨ decodeCmd w = .inEos d) ∧
  (∀ c : Command, decodeCmd c.word = if c.eos then .inEos c.data else .inByte c.data)

/-- R70: the fields of the token word, the combinations the block never produces, and that the word carries the
token whole. -/
def Obligations.TokenWords : Prop :=
  ∀ H t, offeredToken H = some t →
    let kind := (packToken t).extractLsb' 35 1
    let cause := (packToken t).extractLsb' 34 1
    let len := ((packToken t).extractLsb' 31 3).toNat
    let value := ((packToken t).extractLsb' 0 31).toNat
    (match t with
     | .frameTok l v =>
       kind = 0 ∧ cause = 0 ∧ len = l ∧ value = v.toNat ∧ 1 ≤ l ∧ l ≤ 6 ∧ value < 2 ^ Config.payloadWidth l
     | .malTok .badLead b =>
       kind = 1 ∧ cause = 0 ∧ len = 1 ∧ value = b.toNat ∧
         ((0x80 ≤ value ∧ value ≤ 0xBF) ∨ value = 0xFE ∨ value = 0xFF)
     | .malTok .badCont b =>
       kind = 1 ∧ cause = 1 ∧ len = 1 ∧ value = b.toNat ∧ 0xC0 ≤ value ∧ value ≤ 0xFD) ∧
    unpackToken (packToken t) = some t

/-- R74: the pseudo-frame `ENC_i(v)` decodes to its argument, whatever follows it. -/
def Obligations.EncodedFrameDecodesBack : Prop :=
  ∀ (i v : Nat) (S : List Byte), 1 ≤ i → i ≤ 6 → v < 2 ^ Config.payloadWidth i →
    decode (enc i v ++ S) = .frame i (BitVec.ofNat 31 v)

/-- Every well-formed instruction, with every operand its encoding admits, decodes from its own words
(30_encoding.md R64, R71, R74; 40_decoder.md R93 to R95; 41_reassembler.md R100). -/
def Obligations.EncodeThenDecode : Prop :=
  ∀ i : Instr, WellFormed i = true → decodeWire (encode i) = .ok i

/-- Whatever bytes follow it in the stream, a complete stream instruction is read as itself (R69, R81); NEEDMORE is
the one that more bytes change. -/
def Obligations.FollowingBytesDoNotMatter : Prop :=
  ∀ (i : Instr) (B S : List Byte), WellFormed i = true → encode i = .stream B →
    (∀ lead present, i ≠ .needMore lead present) → decodeInstr (B ++ S) = .ok i

/-- Every non-empty byte list is some well-formed instruction, and that instruction's words are the list's first
`need` bytes (R68, R81, R82). -/
def Obligations.DecodeThenEncode : Prop :=
  ∀ (b0 : Byte) (rest : List Byte), ∃ i : Instr,
    decodeInstr (b0 :: rest) = .ok i ∧ WellFormed i = true ∧
      encode i = .stream ((b0 :: rest).take (need b0))

/-- The row-by-row instruction decoder and the source's algorithm (R80) agree on every byte list. -/
def Obligations.InstructionDecoderAgreesWithDecode : Prop :=
  ∀ (B : List Byte) (i : Instr), decodeInstr B = .ok i → i.result = some (decode B)

/-- A sanity check: words written out bit by bit from R64, R61 and R71 decode to what they stand for. -/
def Obligations.WrittenOutWordsDecode : Prop :=
  decodeInstr [0b01000001#8] = .ok (.frame1 0b1000001#7) ∧
  decodeInstr [0b11000011#8, 0b10101001#8] = .ok (.frame2 0b00011101001#11) ∧
  decodeInstr [0b11100010#8, 0b10000010#8, 0b10101100#8] = .ok (.frame3 0b0010000010101100#16) ∧
  decodeInstr [0b10111111#8] = .ok (.badLead 0b111111#6) ∧
  decodeInstr [0b11000011#8, 0b01000001#8] = .ok (.badCont01 0b11000011#8 [] 0b000001#6 []) ∧
  decodeInstr [0b11111000#8, 0b10000000#8] = .ok (.needMore 0b11111000#8 [0b10000000#8]) ∧
  decodeCmd 0b001000001#9 = .inByte 0b01000001#8

/-! ## The decoder (40_decoder.md) -/

/-- R144: the checks in their fixed order, each with its result. -/
def Obligations.DecodeChecksInOrder : Prop :=
  decode [] = .needMore 1 ∧
  ∀ (b0 : Byte) (rest : List Byte),
    (b0.getLsbD 7 = false → ∃ v, decode (b0 :: rest) = .frame 1 v) ∧
    (leadLen b0 = none → decode (b0 :: rest) = .malformed .badLead) ∧
    ∀ i, 2 ≤ i → leadLen b0 = some i →
      ((b0 :: rest).length < i → decode (b0 :: rest) = .needMore i) ∧
      (i ≤ (b0 :: rest).length →
        (∃ k, 1 ≤ k ∧ k < i ∧ ((b0 :: rest).getD k 0).extractLsb' 6 2 ≠ 0b10#2) →
        decode (b0 :: rest) = .malformed .badCont) ∧
      (i ≤ (b0 :: rest).length →
        (∀ k, 1 ≤ k → k < i → ((b0 :: rest).getD k 0).extractLsb' 6 2 = 0b10#2) →
        ∃ v, decode (b0 :: rest) = .frame i v)

/-- R87 to R92: each format's result, bit field by bit field, its NeedMore and its BAD_CONT. -/
def Obligations.FrameFormatsDecode : Prop :=
  (∀ (a : BitVec 7) (S : List Byte), decode ((0b0#1 ++ a) :: S) = .frame 1 (a.setWidth 31)) ∧
  (∀ (a : BitVec 5) (p : BitVec 6) (S : List Byte),
    decode ((0b110#3 ++ a) :: contByte p :: S) = .frame 2 ((a ++ p).setWidth 31)) ∧
  (∀ (a : BitVec 4) (p q : BitVec 6) (S : List Byte),
    decode ((0b1110#4 ++ a) :: contByte p :: contByte q :: S) = .frame 3 ((a ++ p ++ q).setWidth 31)) ∧
  (∀ (a : BitVec 3) (p q r : BitVec 6) (S : List Byte),
    decode ((0b11110#5 ++ a) :: contByte p :: contByte q :: contByte r :: S) =
      .frame 4 ((a ++ p ++ q ++ r).setWidth 31)) ∧
  (∀ (a : BitVec 2) (p q r t : BitVec 6) (S : List Byte),
    decode ((0b111110#6 ++ a) :: contByte p :: contByte q :: contByte r :: contByte t :: S) =
      .frame 5 ((a ++ p ++ q ++ r ++ t).setWidth 31)) ∧
  (∀ (a : BitVec 1) (p q r t u : BitVec 6) (S : List Byte),
    decode ((0b1111110#7 ++ a) :: contByte p :: contByte q :: contByte r :: contByte t :: contByte u :: S) =
      .frame 6 (a ++ p ++ q ++ r ++ t ++ u)) ∧
  (∀ (b0 : Byte) (rest : List Byte) (i : Nat),
    ((i = 2 ∧ 0xC0 ≤ b0.toNat ∧ b0.toNat ≤ 0xDF) ∨ (i = 3 ∧ 0xE0 ≤ b0.toNat ∧ b0.toNat ≤ 0xEF) ∨
      (i = 4 ∧ 0xF0 ≤ b0.toNat ∧ b0.toNat ≤ 0xF7) ∨ (i = 5 ∧ 0xF8 ≤ b0.toNat ∧ b0.toNat ≤ 0xFB) ∨
      (i = 6 ∧ 0xFC ≤ b0.toNat ∧ b0.toNat ≤ 0xFD)) →
    (rest.length + 1 < i → decode (b0 :: rest) = .needMore i) ∧
    (i ≤ rest.length + 1 → (∃ c ∈ rest.take (i - 1), c.extractLsb' 6 2 ≠ 0b10#2) →
      decode (b0 :: rest) = .malformed .badCont))

/-- R93: which bytes are BAD_LEAD, and that nothing after such a byte matters. -/
def Obligations.BadLeadNeedsOneByte : Prop :=
  ∀ (b0 : Byte) (rest : List Byte),
    (((0x80 ≤ b0.toNat ∧ b0.toNat ≤ 0xBF) ∨ b0.toNat = 0xFE ∨ b0.toNat = 0xFF) ↔
      decode (b0 :: rest) = .malformed .badLead) ∧
    (decode (b0 :: rest) = .malformed .badLead → need b0 = 1 ∧ (decode (b0 :: rest)).consumed = 1)

/-- R94: exactly when a byte list is BAD_CONT, and that it consumes only the lead byte. -/
def Obligations.BadContExactlyWhen : Prop :=
  ∀ B : List Byte,
    (decode B = .malformed .badCont ↔
      ∃ b0 rest i k, B = b0 :: rest ∧ leadLen b0 = some i ∧ 2 ≤ i ∧ i ≤ 6 ∧ i ≤ B.length ∧
        1 ≤ k ∧ k < i ∧
        ((B.getD k 0).extractLsb' 6 2 = 0b00#2 ∨ (B.getD k 0).extractLsb' 6 2 = 0b01#2 ∨
          (B.getD k 0).extractLsb' 6 2 = 0b11#2)) ∧
    (decode B = .malformed .badCont → (decode B).consumed = 1)

/-- R82: `need`, and that NeedMore is returned exactly when too few bytes are present. -/
def Obligations.NeedMoreExactlyWhenShort : Prop :=
  (∀ b : Byte,
    (∀ i, 2 ≤ i → i ≤ 6 → leadLen b = some i → need b = i) ∧
    (leadLen b = some 1 ∨ leadLen b = none → need b = 1)) ∧
  ∀ B : List Byte,
    (∃ i, decode B = .needMore i) ↔ B = [] ∨ ∃ b0 rest, B = b0 :: rest ∧ B.length < need b0

/-- R81: locality. -/
def Obligations.DecodeIsLocal : Prop :=
  (∀ (b0 : Byte) (r q : List Byte), need b0 ≤ (b0 :: r).length → need b0 ≤ (b0 :: q).length →
    (b0 :: r).take (need b0) = (b0 :: q).take (need b0) → decode (b0 :: r) = decode (b0 :: q)) ∧
  (∀ (b0 : Byte) (r q : List Byte), (b0 :: r).length < need b0 → (b0 :: q).length < need b0 →
    decode (b0 :: r) = decode (b0 :: q)) ∧
  (∀ (b0 : Byte) (r : List Byte), (decode (b0 :: r)).consumed ≤ need b0)

/-- R97: the token of a resolved result, and the lengths. -/
def Obligations.TokenConstruction : Prop :=
  ∀ (b0 : Byte) (rest : List Byte),
    (∀ l v, decode (b0 :: rest) = .frame l v → offeredToken (b0 :: rest) = some (.frameTok l v) ∧
      (Token.frameTok l v).len = l) ∧
    (∀ c, decode (b0 :: rest) = .malformed c → offeredToken (b0 :: rest) = some (.malTok c b0) ∧
      (Token.malTok c b0).len = 1) ∧
    (∀ i, decode (b0 :: rest) = .needMore i → offeredToken (b0 :: rest) = none)

/-! ## The output lines (10_state.md) -/

/-- R28 and R21: the handshake lines, the bound on a held buffer at rest, and the one way to reach six bytes. -/
def Obligations.HandshakeAndRestBound : Prop :=
  ∀ H : List Byte,
    (outValid H = true ↔ H ≠ [] ∧ ∀ i, decode H ≠ .needMore i) ∧
    inReady H = !outValid H ∧
    (outValid H = false → H.length ≤ 5 ∧ (H = [] ∨ ∃ i, decode H = .needMore i ∧ H.length < i ∧ i ≤ 6)) ∧
    (∀ b, outValid H = false → (H ++ [b]).length = 6 →
      H.length = 5 ∧ decode H = .needMore 6 ∧ outValid (H ++ [b]) = true)

/-- R31: what `need_len` can be, and what it says of the other lines. -/
def Obligations.NeedLenFacts : Prop :=
  needLen [] = 0 ∧
  ∀ H : List Byte,
    (decode H = .needMore 1 → H = []) ∧
    needLen H ≠ 1 ∧
    (needLen H ≠ 0 →
      2 ≤ (needLen H).toNat ∧ (needLen H).toNat ≤ 6 ∧ (holdCount H).toNat < (needLen H).toNat ∧
        outValid H = false ∧ inReady H = true)

/-- R30: the fields of STATUS and their legal values, for every buffer within the capacity. -/
def Obligations.StatusWordLayout : Prop :=
  ∀ H : List Byte, H.length ≤ 6 →
    ((statusWord H).extractLsb' 0 3).toNat = H.length ∧
    ((statusWord H).extractLsb' 3 3).toNat = needLenNat H ∧
    (needLenNat H = 0 ∨ (2 ≤ needLenNat H ∧ needLenNat H ≤ 6)) ∧
    (statusWord H).getLsbD 6 = outValid H ∧
    (statusWord H).getLsbD 7 = inReady H

/-- R29: the token lines while `out_valid = 1`. Nothing is said of them while it is 0 (I1). -/
def Obligations.TokenLinesWhileValid : Prop :=
  ∀ s : State, outValid s.hold = true → ∃ b0 rest, s.hold = b0 :: rest ∧
    (∀ l v, decode s.hold = .frame l v →
      (tokenLines s).extractLsb' 35 1 = 0 ∧ (tokenLines s).extractLsb' 34 1 = 0 ∧
        ((tokenLines s).extractLsb' 31 3).toNat = l ∧ (tokenLines s).extractLsb' 0 31 = v) ∧
    (∀ c, decode s.hold = .malformed c →
      (tokenLines s).extractLsb' 35 1 = 1 ∧
        (tokenLines s).extractLsb' 34 1 = (match c with | .badLead => 0 | .badCont => 1) ∧
        ((tokenLines s).extractLsb' 31 3).toNat = 1 ∧ (tokenLines s).extractLsb' 0 31 = b0.setWidth 31)

/-- R33: the block after reset. -/
def Obligations.ResetValues : Prop :=
  State.reset.hold = [] ∧ holdCount State.reset.hold = 0 ∧ needLen State.reset.hold = 0 ∧
    outValid State.reset.hold = false ∧ inReady State.reset.hold = true ∧
    statusWord State.reset.hold = 0x80

/-! ## The instructions -/

/-- FRAME1 to FRAME6 run as the instruction at the frame start: the result of R87 to R92 and its delivery (R97, R104,
R22), and everything else unchanged. That a frame format run as an instruction is delivered is the model's reading
(log 1), and that `decoded` records the result is the model's choice (log 5). -/
def Obligations.FrameInstructionsDeliver : Prop :=
  ∀ s : State,
    (∀ v, exec (.frame1 v) s =
      .next { s with
        hold := s.hold.drop 1, pos := s.pos + 1, tokens := s.tokens ++ [.frameTok 1 (v.setWidth 31)]
        decoded := some (.frame 1 (v.setWidth 31)) }) ∧
    (∀ v, exec (.frame2 v) s =
      .next { s with
        hold := s.hold.drop 2, pos := s.pos + 2, tokens := s.tokens ++ [.frameTok 2 (v.setWidth 31)]
        decoded := some (.frame 2 (v.setWidth 31)) }) ∧
    (∀ v, exec (.frame3 v) s =
      .next { s with
        hold := s.hold.drop 3, pos := s.pos + 3, tokens := s.tokens ++ [.frameTok 3 (v.setWidth 31)]
        decoded := some (.frame 3 (v.setWidth 31)) }) ∧
    (∀ v, exec (.frame4 v) s =
      .next { s with
        hold := s.hold.drop 4, pos := s.pos + 4, tokens := s.tokens ++ [.frameTok 4 (v.setWidth 31)]
        decoded := some (.frame 4 (v.setWidth 31)) }) ∧
    (∀ v, exec (.frame5 v) s =
      .next { s with
        hold := s.hold.drop 5, pos := s.pos + 5, tokens := s.tokens ++ [.frameTok 5 (v.setWidth 31)]
        decoded := some (.frame 5 (v.setWidth 31)) }) ∧
    (∀ v, exec (.frame6 v) s =
      .next { s with
        hold := s.hold.drop 6, pos := s.pos + 6, tokens := s.tokens ++ [.frameTok 6 v]
        decoded := some (.frame 6 v) })

/-- BAD_LEAD and BAD_CONT, every row of each, run as the instruction at the frame start (R93, R94, R141, R142, R145):
the MALFORMED exception is taken with the lead byte on record, one byte is dropped, and everything else is
unchanged. `decoded` is the model's own record (log 1, log 5). -/
def Obligations.MalformedInstructionsDropOneByte : Prop :=
  ∀ s : State,
    let taken (c : Cause) (b : Byte) : State :=
      { s with
        hold := s.hold.drop 1, pos := s.pos + 1, tokens := s.tokens ++ [.malTok c b]
        decoded := some (.malformed c) }
    (∀ x : BitVec 6, exec (.badLead x) s = .next (taken .badLead (0b10#2 ++ x))) ∧
    exec .badLeadFE s = .next (taken .badLead 0xFE) ∧
    exec .badLeadFF s = .next (taken .badLead 0xFF) ∧
    (∀ lead good x after, exec (.badCont00 lead good x after) s = .next (taken .badCont lead)) ∧
    (∀ lead good x after, exec (.badCont01 lead good x after) s = .next (taken .badCont lead)) ∧
    (∀ lead good x after, exec (.badCont11 lead good x after) s = .next (taken .badCont lead))

/-- NEEDMORE (R95, R143): `NeedMore(i)` with the declared length; no byte consumed, no token, nothing else changed.
`decoded` is the model's own record (log 5). -/
def Obligations.NeedMoreConsumesNothing : Prop :=
  ∀ (s : State) (lead : Byte) (present : List Byte) (i : Nat),
    leadLen lead = some i → present.length + 1 < i →
    decode (lead :: present) = .needMore i ∧
      exec (.needMore lead present) s = .next { s with decoded := some (.needMore i) }

/-- DECODE (R80): the result is returned and nothing is written. `decoded` is the model's own record (log 5). -/
def Obligations.DecodeWritesNothing : Prop :=
  ∀ (s : State) (B : List Byte), exec (.decode B) s = .next { s with decoded := some (decode B) }

/-- IN_BYTE (R103): enabled when `in_ready`, it appends its byte, within the capacity; its corner cases. `accepted`
and `offered` are the model's own fields (log 4, log 6). -/
def Obligations.InByteAppends : Prop :=
  ∀ (s : State) (b : Byte), inReady s.hold = true →
    exec (.inByte b) s =
      .next { s with hold := s.hold ++ [b], accepted := s.accepted ++ [b], offered := none } ∧
    (s.hold ++ [b]).length ≤ 6 ∧
    (s.hold = [] → (outValid (s.hold ++ [b]) = false ↔ ∃ i, 2 ≤ i ∧ leadLen b = some i)) ∧
    (∀ i, decode s.hold = .needMore i → s.hold ≠ [] → s.hold.length + 1 = i →
      outValid (s.hold ++ [b]) = true ∧
        ((∃ k, 1 ≤ k ∧ k < i ∧ isCont ((s.hold ++ [b]).getD k 0) = false) →
          decode (s.hold ++ [b]) = .malformed .badCont))

/-- OUT_TOKEN (R104): enabled when `out_valid`, it delivers `token(decode(H), H[0])` and drops the token's length.
`pos`, `tokens` and `decoded` are the model's own fields (log 4, log 5). -/
def Obligations.OutTokenDelivers : Prop :=
  ∀ s : State, outValid s.hold = true →
    ∃ t, offeredToken s.hold = some t ∧
      exec .outToken s =
        .next { s with
          hold := s.hold.drop t.len, pos := s.pos + t.len, tokens := s.tokens ++ [t]
          decoded := some (decode s.hold) } ∧
      1 ≤ t.len ∧ t.len ≤ s.hold.length ∧ (s.hold.length ≤ 6 → (s.hold.drop t.len).length ≤ 5)

/-- R145: a MALFORMED result is one OUT_TOKEN: the MalTok with `H[0]`, then exactly one byte dropped. -/
def Obligations.MalformedIsOneOutToken : Prop :=
  ∀ (s : State) (b0 : Byte) (rest : List Byte) (c : Cause),
    s.hold = b0 :: rest → decode s.hold = .malformed c →
    offeredToken s.hold = some (.malTok c b0) ∧
      exec .outToken s =
        .next { s with
          hold := rest, pos := s.pos + 1, tokens := s.tokens ++ [.malTok c b0]
          decoded := some (.malformed c) }

/-- IN_EOS (R105): enabled when `in_ready`, it discards H with no token, whatever its data bits; the outputs take their
reset values. What becomes of the model's own records at a session boundary is log 4 and log 5. -/
def Obligations.InEosDiscardsTheTail : Prop :=
  ∀ (s : State) (x : Byte), inReady s.hold = true →
    exec (.inEos x) s =
      .next { s with
        hold := [], offered := none, accepted := [], pos := 0, tokens := []
        earlier := s.earlier ++ s.tokens, decoded := none, fed := none } ∧
    ∀ t, exec (.inEos x) s = .next t →
      delivered t = delivered s ∧ holdCount t.hold = 0 ∧ needLen t.hold = 0 ∧ outValid t.hold = false ∧
        inReady t.hold = true

/-- RESET (R160): in any state H is emptied, with no token, and a step whose sample has `rst` high is RESET whatever
else is on the lines. What becomes of the model's own records is log 4 and log 5. -/
def Obligations.ResetDominates : Prop :=
  ∀ s : State,
    exec .reset s =
      .next { s with
        hold := [], accepted := [], pos := 0, tokens := [], earlier := s.earlier ++ s.tokens
        decoded := none, fed := none } ∧
    (s.pins.rst = true → step s = exec .reset (sample s)) ∧
    (s.pins.rst = true → Answers (step s) fun t =>
      t.hold = [] ∧ delivered t = delivered s ∧ outValid t.hold = false ∧ inReady t.hold = true ∧
        holdCount t.hold = 0 ∧ needLen t.hold = 0)

/-- A port operation that is not enabled does not transfer and waits (R28, R49, R51; the model's reading, log 8): H,
the tokens and all else stay, and a command stays offered. -/
def Obligations.DisabledOperationsWait : Prop :=
  ∀ s : State,
    (outValid s.hold = true →
      (∀ d, exec (.inByte d) s = .next { s with offered := some ⟨false, d⟩ }) ∧
      (∀ x, exec (.inEos x) s = .next { s with offered := some ⟨true, x⟩ })) ∧
    (outValid s.hold = false → exec .outToken s = .next s)

/-! ## FEED (41_reassembler.md) -/

/-- R100: FEED is its loop. One turn at a time: at the end of the buffer it stops; a frame or a malformed byte gives
its token and moves the offset; NeedMore retains the rest. -/
def Obligations.FeedLoopTurnByTurn : Prop :=
  ∀ (R C : List Byte),
    (R ++ C = [] → feed R C = ⟨[], [], 0, 0⟩) ∧
    ∀ b0 rest, R ++ C = b0 :: rest →
      (∀ l v, decode (R ++ C) = .frame l v →
        let r := feed [] ((R ++ C).drop l)
        feed R C = ⟨.frameTok l v :: r.toks, r.retained, l + r.consumed, r.need⟩) ∧
      (∀ c, decode (R ++ C) = .malformed c →
        let r := feed [] ((R ++ C).drop 1)
        feed R C = ⟨.malTok c b0 :: r.toks, r.retained, 1 + r.consumed, r.need⟩) ∧
      (∀ i, decode (R ++ C) = .needMore i → feed R C = ⟨[], R ++ C, 0, i⟩)

/-- The FEED instruction (R100, R109): H becomes R', the tokens are those of the frame starts of `H ++ C`, what was
consumed is counted over `H ++ C`, the result is returned, and everything else is unchanged. -/
def Obligations.FeedInstructionRuns : Prop :=
  ∀ (s : State) (C : List Byte), ∃ r : FeedResult,
    FrameStarts (s.hold ++ C) r.toks r.retained ∧
    r.consumed + r.retained.length = s.hold.length + C.length ∧
    r.need = needLenNat r.retained ∧
    exec (.feed C) s =
      .next { s with
        hold := r.retained, accepted := s.accepted ++ C, pos := s.pos + r.consumed
        tokens := s.tokens ++ r.toks, fed := some r }

/-- R101: FEED's postconditions (a) to (e). -/
def Obligations.FeedPostconditions : Prop :=
  ∀ (R C : List Byte),
    let r := feed R C
    (r.retained = (R ++ C).drop r.consumed ∧ r.consumed + r.retained.length = R.length + C.length) ∧
    ((r.retained = [] ∧ r.need = 0) ∨
      (decode r.retained = .needMore r.need ∧ 2 ≤ r.need ∧ r.need ≤ 6 ∧ r.retained.length < r.need)) ∧
    r.retained.length ≤ 5 ∧
    (r.toks.map Token.len).sum = r.consumed ∧
    r.consumed ≤ (R ++ C).length ∧
    (∀ i, R ≠ [] → decode R = .needMore i → R.length + C.length < i →
      r.toks = [] ∧ r.retained = R ++ C ∧ r.consumed = 0 ∧ r.need = i)

/-- R102: an empty chunk changes nothing; on a resolvable R, FEED decodes it as usual. -/
def Obligations.FeedEmptyChunk : Prop :=
  (∀ R : List Byte, outValid R = false → feed R [] = ⟨[], R, 0, needLenNat R⟩) ∧
  (∀ R : List Byte, outValid R = true → ∃ t, offeredToken R = some t ∧
    (feed R []).toks = t :: (feed [] (R.drop t.len)).toks)

/-- R108: chunk independence: however a session's bytes are split, the tokens, the final retained buffer and the
total consumed are those of the bytes fed whole. -/
def Obligations.ChunkIndependence : Prop :=
  ∀ Cs : List (List Byte),
    let whole := feed [] Cs.flatten
    feedChunks [] Cs = (whole.toks, whole.retained, whole.consumed)

/-- R107: the machine, stepping over the samples that offer a chunk byte by byte with a full drain after each byte,
delivers exactly FEED's tokens and ends with FEED's R', consumed and need. How the samples stand in State is log 2; the
clauses on `pos`, `tokens`, `accepted` and `earlier` are about the model's own records (log 4). -/
def Obligations.ByteSerialRunEqualsFeed : Prop :=
  ∀ (s : State) (C : List Byte), inReady s.hold = true → s.offered = none → s.inputs = serialInputs C →
    ∃ t : State, Host.Core.run Sys2Proof.core s.inputs.length s = .next t ∧
      t.hold = (feed s.hold C).retained ∧
      t.tokens = s.tokens ++ (feed s.hold C).toks ∧
      t.pos = s.pos + (feed s.hold C).consumed ∧
      needLenNat t.hold = (feed s.hold C).need ∧
      t.accepted = s.accepted ++ C ∧ t.earlier = s.earlier ∧ t.inputs = []

/-- R146: after a MALFORMED result every following byte is looked at again as a lead byte, so a stream of stray
continuation bytes is one BAD_LEAD each, and then decoding goes on as if they had not been there. -/
def Obligations.ResynchronisesOneByteAtATime : Prop :=
  (∀ (b0 : Byte) (rest : List Byte) (c : Cause), decode (b0 :: rest) = .malformed c →
    (feed [] (b0 :: rest)).toks = .malTok c b0 :: (feed [] rest).toks ∧
    (feed [] (b0 :: rest)).retained = (feed [] rest).retained) ∧
  (∀ (B S : List Byte), (∀ c ∈ B, isCont c = true) →
    (feed [] (B ++ S)).toks = B.map (.malTok .badLead) ++ (feed [] S).toks ∧
    (feed [] (B ++ S)).retained = (feed [] S).retained ∧
    (feed [] (B ++ S)).consumed = B.length + (feed [] S).consumed)

/-- R106 and R148: after any byte the block is ready again within six OUT_TOKENs; the same from any buffer within the
capacity; the bound is reached. -/
def Obligations.DrainsEndWithinSixTokens : Prop :=
  (∀ s : State, s.hold.length ≤ 6 → ∃ n, n ≤ 6 ∧
    Answers (takeTokens n s) fun u =>
      inReady u.hold = true ∧ u.tokens.length = s.tokens.length + n ∧ u.earlier = s.earlier) ∧
  (∀ (s : State) (b : Byte), inReady s.hold = true →
    Answers (exec (.inByte b) s) fun t => ∃ n, n ≤ 6 ∧
      Answers (takeTokens n t) fun u => inReady u.hold = true ∧ u.tokens.length = s.tokens.length + n) ∧
  (∀ s : State, s.hold = [0xFC, 0x80, 0x80, 0x80, 0x80] →
    Answers (exec (.inByte 0x41) s) fun t => Answers (takeTokens 6 t) fun u =>
      u.hold = [] ∧
        u.tokens = s.tokens ++ [.malTok .badCont 0xFC, .malTok .badLead 0x80, .malTok .badLead 0x80,
          .malTok .badLead 0x80, .malTok .badLead 0x80, .frameTok 1 0x41])

/-! ## The step -/

/-- A step runs the instruction at the head of H. When the consumer is ready for the token of a complete one, the step
is OUT_TOKEN (R22, R104), and that this is exec of the decoded instruction is the model's reading (log 1). When an
incomplete one waits with no command offered, that the step is exec of its NEEDMORE is the model's reading (log 14):
R170 lists no such event. The step adds only the reading of the sample. -/
def Obligations.StepRunsTheHeadInstruction : Prop :=
  ∀ (s : State) (i : Instr), decodeInstr s.hold = .ok i → commandChanged s = false → s.pins.rst = false →
    (outValid s.hold = true → s.pins.outReady = true →
      step s = exec i (sample s) ∧ step s = exec .outToken (sample s)) ∧
    (outValid s.hold = false → s.pins.inValid = false → step s = exec i (sample s))

/-- A step runs the command on the input channel of a block that is ready (R25, R28, R49, R71). -/
def Obligations.StepRunsTheOfferedCommand : Prop :=
  ∀ s : State, commandChanged s = false → s.pins.rst = false → inReady s.hold = true →
    s.pins.inValid = true →
    (s.pins.inEos = false → step s = exec (.inByte s.pins.inData) (sample s)) ∧
    (s.pins.inEos = true → step s = exec (.inEos s.pins.inData) (sample s))

/-- No step refuses; a step stops only where the upstream changed a command it was offering, which is stuck by I5
(R148, R169; log 6). -/
def Obligations.StepStopsOnlyOnAChangedCommand : Prop :=
  ∀ s : State,
    (commandChanged s = true ↔
      ∃ c, s.offered = some c ∧ s.pins.rst = false ∧ s.pins.inValid = true ∧
        ⟨s.pins.inEos, s.pins.inData⟩ ≠ c) ∧
    (commandChanged s = true → step s = .fault .commandChanged) ∧
    (commandChanged s = false → ∃ t, step s = .next t)

/-- With nothing offered and no reset, a block that is ready holds H unchanged (R155). That a kept command stays kept
while `in_valid` is low (`offered`) is the model's choice (log 6), which R155 does not state; `tokens`, `earlier`,
`accepted` and `pos` are the model's own records (log 4). -/
def Obligations.IdleBlockHolds : Prop :=
  ∀ s : State, inReady s.hold = true → s.pins.rst = false → s.pins.inValid = false →
    Answers (step s) fun t =>
      t.hold = s.hold ∧ t.tokens = s.tokens ∧ t.earlier = s.earlier ∧ t.accepted = s.accepted ∧
        t.pos = s.pos ∧ t.offered = s.offered

/-- R49 and R47: an offered token stays unchanged until it transfers, whole, or reset occurs; no input transfers
meanwhile. -/
def Obligations.OfferedTokenIsStable : Prop :=
  ∀ s t : State, outValid s.hold = true → s.pins.rst = false → step s = .next t →
    t.accepted = s.accepted ∧ t.earlier = s.earlier ∧
    (s.pins.outReady = false → t.hold = s.hold ∧ offeredToken t.hold = offeredToken s.hold ∧
      t.tokens = s.tokens) ∧
    (s.pins.outReady = true → ∃ k, offeredToken s.hold = some k ∧ t.tokens = s.tokens ++ [k])

/-- R41: the only ways a step changes H. -/
def Obligations.HoldChangesOnlyByItsOperations : Prop :=
  ∀ s t : State, step s = .next t →
    t.hold = s.hold ∨
    (inReady s.hold = true ∧ s.pins.inValid = true ∧ s.pins.inEos = false ∧
      t.hold = s.hold ++ [s.pins.inData]) ∨
    (∃ k, offeredToken s.hold = some k ∧ s.pins.outReady = true ∧ t.hold = s.hold.drop k.len) ∨
    ((s.pins.rst = true ∨ (inReady s.hold = true ∧ s.pins.inValid = true ∧ s.pins.inEos = true)) ∧
      t.hold = [])

/-- R162 and R51: a session ends only by a RESET or by an EOS that the drained block accepts, and then H is empty. That
the session's record `accepted` starts afresh there is the model's choice (log 4). -/
def Obligations.SessionBoundaries : Prop :=
  ∀ s t : State, step s = .next t → (¬ ∃ b, t.accepted = s.accepted ++ b) →
    (s.pins.rst = true ∨ (outValid s.hold = false ∧ s.pins.inValid = true ∧ s.pins.inEos = true)) ∧
      t.hold = []

/-- R53 and R20: only H decides what the block does: two states that agree on H and on the environment step alike,
whatever all the model's records hold, and deliver the same tokens. -/
def Obligations.OnlyTheHoldBufferMatters : Prop :=
  ∀ s₁ s₂ : State, SameBlock s₁ s₂ →
    (step s₁ = .fault .commandChanged ∧ step s₂ = .fault .commandChanged) ∨
    ∃ t₁ t₂ d, step s₁ = .next t₁ ∧ step s₂ = .next t₂ ∧ SameBlock t₁ t₂ ∧
      delivered t₁ = delivered s₁ ++ d ∧ delivered t₂ = delivered s₂ ++ d

/-! ## Invariants -/

/-- R20: every step keeps the hold buffer within its capacity. -/
def Obligations.StepKeepsTheHoldBound : Prop :=
  ∀ s t : State, s.hold.length ≤ 6 → step s = .next t → t.hold.length ≤ 6

/-- The session invariant (R20, R43, R50, R70, R109, R110) is kept by every step, from every state that has it. -/
def Obligations.StepKeepsTheSessionInvariant : Prop :=
  ∀ s t : State, SessionInv s → step s = .next t → SessionInv t

/-- The session invariant holds after reset. -/
def Obligations.ResetHasTheSessionInvariant : Prop := SessionInv State.reset

/-- The session invariant is kept by the FEED transaction (R100, R101, R109). -/
def Obligations.FeedKeepsTheSessionInvariant : Prop :=
  ∀ (s : State) (C : List Byte), SessionInv s → Answers (exec (.feed C) s) SessionInv

/-- R109: in every state of a session, once the block has drained, the consumer has received exactly the tokens of the
frame starts of the accepted bytes, and H is what is left of them. -/
def Obligations.DrainedOutputIsTheStreamsMeaning : Prop :=
  ∀ s : State, SessionInv s → inReady s.hold = true →
    FrameStarts s.accepted s.tokens s.hold ∧ s.hold.length ≤ 5 ∧
      (∀ ts R, FrameStarts s.accepted ts R → ts = s.tokens ∧ R = s.hold)

/-! ## The consumer boundary (44_consumer_boundary.md, outside the block) -/

/-- R123 with R73: a motion packed by `MOVE` comes back from the block's token, on the whole range of each axis. -/
def Obligations.MotionsRoundTrip : Prop :=
  ∀ dx dy : Int, -4095 ≤ dx → dx ≤ 4095 → -4095 ≤ dy → dy ≤ 4095 →
    ∃ B v, move dx dy = some B ∧ offeredToken B = some (.frameTok 5 v) ∧
      interpret (.frameTok 5 v) = some (.moveBy dx dy)

/-- R121 and R124: the class of a token by its length alone, and the index ranges. The special-key slots, 8 to 34, are
an open parameter (log 13): nothing is said of which key a slot is. -/
def Obligations.TokenClassesAndIndexRanges : Prop :=
  (∀ l v, 1 ≤ l → l ≤ 4 → tokenClass (.frameTok l v) = some .char) ∧
  (∀ v, tokenClass (.frameTok 5 v) = some .motion ∧ tokenClass (.frameTok 6 v) = some .index) ∧
  (∀ c b, tokenClass (.malTok c b) = some .malformed ∧ interpret (.malTok c b) = some (.logMalformed c b)) ∧
  (∀ v : Value, 37 ≤ v.toNat → interpret (.frameTok 6 v) = some .unknownIndex) ∧
  (∀ v : Value, interpret (.frameTok 6 v) = some .unknownIndex → 37 ≤ v.toNat) ∧
  (∀ v : Value, 8 ≤ v.toNat → v.toNat ≤ 34 →
    interpret (.frameTok 6 v) = some .reservedSlot ∨ ∃ k, interpret (.frameTok 6 v) = some (.specialKey k))
end

