-- ==== Sys2Proof/Laws/Decode.lean ====
section
/-! SUPPORT. What the length extractor, the validator, the assembler and the decoders can answer, said once. -/

namespace Sys2Proof.Laws

/-- A byte's property holds of all bytes when it holds of the 256 numbers. -/
theorem forall_byte_of_fin {P : Byte → Prop} (h : ∀ n : Fin 256, P (BitVec.ofFin n)) (b : Byte) : P b := h b.toFin

/-! ### The length extractor -/

theorem leadLen_one_iff (b : Byte) : leadLen b = some 1 ↔ b.getLsbD 7 = false := by
  revert b; exact forall_byte_of_fin (by decide +kernel)

/-- A declared length is one of 1 to 6. -/
theorem leadLen_range (b : Byte) : ∀ i, leadLen b = some i → 1 ≤ i ∧ i ≤ 6 := by
  have h : ∀ b : Byte, (leadLen b).all (fun i => decide (1 ≤ i ∧ i ≤ 6)) = true :=
    forall_byte_of_fin (by decide +kernel)
  intro i hi
  have := h b
  rw [hi] at this
  simpa using this

theorem leadLen_eq_class (b : Byte) :
    leadLen b =
      (match leadClass b with
       | .f1 => some 1 | .f2 => some 2 | .f3 => some 3 | .f4 => some 4 | .f5 => some 5 | .f6 => some 6
       | .stray => none | .leadFE => none | .leadFF => none) := by
  revert b; exact forall_byte_of_fin (by decide +kernel)

theorem need_pos (b : Byte) : 1 ≤ need b := by
  unfold need
  split
  · exact (leadLen_range b _ ‹_›).1
  · exact Nat.le_refl 1

theorem need_le_six (b : Byte) : need b ≤ 6 := by
  unfold need
  split
  · exact (leadLen_range b _ ‹_›).2
  · omega

theorem need_of_leadLen {b : Byte} {i : Nat} (h : leadLen b = some i) : need b = i := by simp [need, h]

/-! ### The validator and the assembler -/

theorem isCont_iff_tag (c : Byte) : isCont c = true ↔ c.extractLsb' 6 2 = 0b10#2 := by
  revert c; exact forall_byte_of_fin (by decide +kernel)

theorem contByte_contBits (c : Byte) : isCont c = true → contByte (contBits c) = c := by
  revert c; exact forall_byte_of_fin (by decide +kernel)

@[simp] theorem contBits_contByte (p : BitVec 6) : contBits (contByte p) = p := by
  revert p; decide +kernel

theorem assemble_none_iff (cs : List Byte) : ∀ v, assemble v cs = none ↔ ∃ c ∈ cs, isCont c = false := by
  induction cs with
  | nil => simp [assemble]
  | cons c cs ih =>
    intro v
    by_cases h : isCont c = true
    · have ht := (isCont_iff_tag c).1 h
      simp [assemble, ht, ih, h]
    · have ht : ¬ c.extractLsb' 6 2 = 0b10#2 := fun e => h ((isCont_iff_tag c).2 e)
      simp [assemble, ht, h]

/-- When every byte passes, the value is R66's left fold. -/
theorem assemble_of_all {cs : List Byte} (h : ∀ c ∈ cs, isCont c = true) :
    ∀ v, assemble v cs = some (cs.foldl shiftIn v) := by
  induction cs with
  | nil => simp [assemble]
  | cons c cs ih =>
    intro v
    have ht := (isCont_iff_tag c).1 (h c (by simp))
    simp [assemble, ht, ih (fun d hd => h d (by simp [hd]))]

/-! ### `decode`, case by case -/

/-- Everything `decode` can answer on a non-empty list, with the condition of each answer. -/
theorem decode_cases (b0 : Byte) (rest : List Byte) :
    (leadLen b0 = some 1 ∧ decode (b0 :: rest) = .frame 1 ((b0.extractLsb' 0 7).setWidth 31)) ∨
    (leadLen b0 = none ∧ decode (b0 :: rest) = .malformed .badLead) ∨
    ∃ i, leadLen b0 = some i ∧ 2 ≤ i ∧ i ≤ 6 ∧
      ((rest.length + 1 < i ∧ decode (b0 :: rest) = .needMore i) ∨
       (i ≤ rest.length + 1 ∧ (∃ c ∈ rest.take (i - 1), isCont c = false) ∧
          decode (b0 :: rest) = .malformed .badCont) ∨
       (i ≤ rest.length + 1 ∧ (∀ c ∈ rest.take (i - 1), isCont c = true) ∧
          decode (b0 :: rest) = .frame i ((rest.take (i - 1)).foldl shiftIn (leadBits i b0)))) := by
  by_cases h7 : b0.getLsbD 7 = false
  · exact .inl ⟨(leadLen_one_iff b0).2 h7, by rw [decode, if_pos h7]⟩
  · cases hl : leadLen b0 with
    | none => exact .inr (.inl ⟨rfl, by rw [decode, if_neg h7, hl]⟩)
    | some i =>
      have hr := leadLen_range b0 i hl
      have h1 : i ≠ 1 := fun e => h7 ((leadLen_one_iff b0).1 (e ▸ hl))
      refine .inr (.inr ⟨i, rfl, by omega, hr.2, ?_⟩)
      by_cases hs : rest.length + 1 < i
      · exact .inl ⟨hs, by rw [decode, if_neg h7, hl]; simp [hs]⟩
      · by_cases hc : ∃ c ∈ rest.take (i - 1), isCont c = false
        · have := (assemble_none_iff _ (leadBits i b0)).2 hc
          exact .inr (.inl ⟨by omega, hc, by rw [decode, if_neg h7, hl]; simp [hs, this]⟩)
        · have hc' : ∀ c ∈ rest.take (i - 1), isCont c = true := by
            intro c hm
            by_contra hn
            exact hc ⟨c, hm, by simpa using hn⟩
          exact .inr (.inr ⟨by omega, hc', by rw [decode, if_neg h7, hl]; simp [hs, assemble_of_all hc']⟩)

/-- A complete frame whose continuations all pass. -/
theorem decode_frame {b0 : Byte} {rest : List Byte} {i : Nat} (hl : leadLen b0 = some i) (h2 : 2 ≤ i)
    (hs : i ≤ rest.length + 1) (ha : ∀ c ∈ rest.take (i - 1), isCont c = true) :
    decode (b0 :: rest) = .frame i ((rest.take (i - 1)).foldl shiftIn (leadBits i b0)) := by
  rcases decode_cases b0 rest with ⟨hl', -⟩ | ⟨hl', -⟩ | ⟨j, hl', -, -, hc⟩
  · simp [hl] at hl'; omega
  · simp [hl] at hl'
  · have hj : j = i := by simpa [hl] using hl'.symm
    subst hj
    rcases hc with ⟨hs', -⟩ | ⟨-, ⟨c, hm, hb⟩, -⟩ | ⟨-, -, hd⟩
    · omega
    · simp [ha c hm] at hb
    · exact hd

/-- One turn of the assembler appends six bits (R66 as the concatenation of R88 to R92). -/
theorem shiftIn_append {n : Nat} (v : BitVec n) (c : Byte) :
    shiftIn (v.setWidth 31) c = (v ++ contBits c).setWidth 31 := by
  apply BitVec.eq_of_getLsbD_eq
  intro i hi
  by_cases h : i < 6
  · simp [shiftIn, BitVec.getLsbD_append, h, hi]
  · have : (contBits c).getLsbD i = false := BitVec.getLsbD_of_ge _ _ (by omega)
    simp [shiftIn, BitVec.getLsbD_append, h, hi, this]

@[simp] theorem isCont_contByte (p : BitVec 6) : isCont (contByte p) = true := by revert p; decide +kernel

@[simp] theorem decode_nil : decode [] = .needMore 1 := rfl

end Sys2Proof.Laws
end

