-- ==== Sys2Proof/Laws/Flags.lean ====
section
/-! SUPPORT. What the output lines say of H, and what following bytes do to them. -/

namespace Sys2Proof.Laws

open Sys2Proof.Machine

@[simp] theorem resolvable_nil : resolvable [] = false := rfl
@[simp] theorem offeredToken_nil : offeredToken [] = none := rfl
@[simp] theorem outValid_eq (H : List Byte) : outValid H = resolvable H := rfl
@[simp] theorem inReady_eq (H : List Byte) : inReady H = !resolvable H := rfl

/-- A non-empty buffer is resolvable exactly when its lead byte's `need` is present. -/
theorem resolvable_cons_iff (b0 : Byte) (rest : List Byte) :
    resolvable (b0 :: rest) = true ↔ need b0 ≤ rest.length + 1 := by
  rcases decode_cases b0 rest with ⟨hl, hd⟩ | ⟨hl, hd⟩ | ⟨i, hl, h2, h6, h⟩
  · simp [resolvable, hd, need_of_leadLen hl]
  · simp [resolvable, hd, need, hl]
  · rcases h with ⟨hs, hd⟩ | ⟨hs, -, hd⟩ | ⟨hs, -, hd⟩
    · simp [resolvable, hd, need_of_leadLen hl]; omega
    · simp [resolvable, hd, need_of_leadLen hl]; omega
    · simp [resolvable, hd, need_of_leadLen hl]; omega

/-- A buffer at rest is empty, or holds a multi-byte lead and too few bytes. -/
theorem rest_cases {H : List Byte} (h : resolvable H = false) :
    H = [] ∨ ∃ b0 rest i, H = b0 :: rest ∧ leadLen b0 = some i ∧ 2 ≤ i ∧ i ≤ 6 ∧ H.length < i ∧
      decode H = .needMore i := by
  cases H with
  | nil => exact .inl rfl
  | cons b0 rest =>
    right
    rcases decode_cases b0 rest with ⟨hl, hd⟩ | ⟨hl, hd⟩ | ⟨i, hl, h2, h6, h⟩
    · simp [resolvable, hd] at h
    · simp [resolvable, hd] at h
    · rcases h with ⟨hs, hd⟩ | ⟨hs, -, hd⟩ | ⟨hs, -, hd⟩
      · exact ⟨b0, rest, i, rfl, hl, h2, h6, by simpa using hs, hd⟩
      · simp_all [resolvable]
      · simp_all [resolvable]

theorem rest_length {H : List Byte} (h : resolvable H = false) : H.length ≤ 5 := by
  rcases rest_cases h with rfl | ⟨b0, rest, i, rfl, -, -, h6, hlt, -⟩
  · simp
  · omega

/-- A resolvable buffer offers a token, and `decode` gives that token's result. -/
theorem offered_cases {H : List Byte} (h : resolvable H = true) :
    ∃ b0 rest, H = b0 :: rest ∧
      ((∃ l v, decode H = .frame l v ∧ 1 ≤ l ∧ l ≤ 6 ∧ l ≤ H.length ∧ offeredToken H = some (.frameTok l v)) ∨
       (∃ c, decode H = .malformed c ∧ offeredToken H = some (.malTok c b0))) := by
  cases H with
  | nil => simp at h
  | cons b0 rest =>
    refine ⟨b0, rest, rfl, ?_⟩
    rcases decode_cases b0 rest with ⟨hl, hd⟩ | ⟨hl, hd⟩ | ⟨i, hl, h2, h6, hc⟩
    · exact .inl ⟨_, _, hd, by omega, by omega, by simp, by simp [offeredToken, hd, tokenOf]⟩
    · exact .inr ⟨_, hd, by simp [offeredToken, hd, tokenOf]⟩
    · rcases hc with ⟨hs, hd⟩ | ⟨hs, -, hd⟩ | ⟨hs, -, hd⟩
      · simp [resolvable, hd] at h
      · exact .inr ⟨_, hd, by simp [offeredToken, hd, tokenOf]⟩
      · exact .inl ⟨_, _, hd, by omega, h6, by simpa using hs, by simp [offeredToken, hd, tokenOf]⟩

/-- A token is on offer exactly while H is resolvable. -/
theorem offeredToken_isSome (H : List Byte) : (offeredToken H).isSome = resolvable H := by
  cases hr : resolvable H with
  | true =>
    obtain ⟨b0, rest, -, ⟨l, v, -, -, -, -, ho⟩ | ⟨c, -, ho⟩⟩ := offered_cases hr <;> simp [ho]
  | false =>
    rcases rest_cases hr with rfl | ⟨b0, rest, i, rfl, -, -, -, -, hd⟩
    · simp
    · simp [offeredToken, hd, tokenOf]

theorem resolvable_of_offered {H : List Byte} {t : Token} (h : offeredToken H = some t) : resolvable H = true := by
  rw [← offeredToken_isSome, h]; rfl

/-- The offered token's length: at least one byte, at most the bytes held and six. -/
theorem offered_len {H : List Byte} {t : Token} (h : offeredToken H = some t) :
    1 ≤ t.len ∧ t.len ≤ H.length ∧ t.len ≤ 6 := by
  obtain ⟨b0, rest, rfl, ⟨l, v, -, h1, h6, hl, ho⟩ | ⟨c, -, ho⟩⟩ := offered_cases (resolvable_of_offered h)
  · rw [ho] at h; cases h; exact ⟨h1, hl, h6⟩
  · rw [ho] at h; cases h; simp [Token.len]

/-- Bytes after a resolvable buffer do not change its result. -/
theorem decode_append {H : List Byte} (h : resolvable H = true) (S : List Byte) : decode (H ++ S) = decode H := by
  cases H with
  | nil => simp at h
  | cons b0 rest =>
    have hn := (resolvable_cons_iff b0 rest).1 h
    have take_eq : ∀ i, i ≤ need b0 → (rest ++ S).take (i - 1) = rest.take (i - 1) := by
      intro i hi
      rw [List.take_append_of_le_length]; omega
    rw [List.cons_append]
    rcases decode_cases b0 rest with ⟨hl, hd⟩ | ⟨hl, hd⟩ | ⟨i, hl, h2, h6, hc⟩
    · rcases decode_cases b0 (rest ++ S) with ⟨hl', hd'⟩ | ⟨hl', hd'⟩ | ⟨j, hl', j2, -, -⟩
      · rw [hd, hd']
      · simp [hl] at hl'
      · simp [hl] at hl'; omega
    · rcases decode_cases b0 (rest ++ S) with ⟨hl', hd'⟩ | ⟨hl', hd'⟩ | ⟨j, hl', j2, -, -⟩
      · simp [hl] at hl'
      · rw [hd, hd']
      · simp [hl] at hl'
    · have hi := need_of_leadLen hl
      have ht := take_eq i (by omega)
      rcases decode_cases b0 (rest ++ S) with ⟨hl', hd'⟩ | ⟨hl', hd'⟩ | ⟨j, hl', j2, -, hc'⟩
      · simp [hl] at hl'; omega
      · simp [hl] at hl'
      · have hj : j = i := by simpa [hl] using hl'.symm
        subst hj
        rw [ht] at hc'
        rcases hc with ⟨hs, -⟩ | ⟨-, ⟨c, hm, hb⟩, hd⟩ | ⟨-, ha, hd⟩
        · omega
        · rcases hc' with ⟨hs', -⟩ | ⟨-, -, hd'⟩ | ⟨-, ha', -⟩
          · simp at hs'; omega
          · rw [hd, hd']
          · simp [ha' c hm] at hb
        · rcases hc' with ⟨hs', -⟩ | ⟨-, ⟨c, hm, hb⟩, -⟩ | ⟨-, -, hd'⟩
          · simp at hs'; omega
          · simp [ha c hm] at hb
          · rw [hd, hd']

theorem resolvable_append {H : List Byte} (h : resolvable H = true) (S : List Byte) : resolvable (H ++ S) = true := by
  cases H with
  | nil => simp at h
  | cons b0 rest =>
    have hd := decode_append h S
    rw [List.cons_append] at hd ⊢
    unfold resolvable at h ⊢
    simp only at h ⊢
    rw [hd]; exact h

theorem offeredToken_append {H : List Byte} {t : Token} (h : offeredToken H = some t) (S : List Byte) :
    offeredToken (H ++ S) = some t := by
  have hr := resolvable_of_offered h
  cases H with
  | nil => simp at h
  | cons b0 rest =>
    have hd := decode_append hr S
    rw [List.cons_append] at hd ⊢
    simp only [offeredToken] at h ⊢
    rw [hd]; exact h

end Sys2Proof.Laws
end

