-- ==== Sys2Proof/Laws/State.lean ====
section
/-! SUPPORT. One lemma per field per update of State, true by `rfl`, so that no later proof unfolds a record update. -/

namespace Sys2Proof.Laws

open Sys2Proof.Machine

/-! ### noteDecoded -/

@[simp] theorem noteDecoded_hold (r : DecodeResult) (s : State) : (noteDecoded r s).hold = s.hold := rfl
@[simp] theorem noteDecoded_inputs (r : DecodeResult) (s : State) : (noteDecoded r s).inputs = s.inputs := rfl
@[simp] theorem noteDecoded_offered (r : DecodeResult) (s : State) : (noteDecoded r s).offered = s.offered := rfl
@[simp] theorem noteDecoded_accepted (r : DecodeResult) (s : State) : (noteDecoded r s).accepted = s.accepted := rfl
@[simp] theorem noteDecoded_pos (r : DecodeResult) (s : State) : (noteDecoded r s).pos = s.pos := rfl
@[simp] theorem noteDecoded_tokens (r : DecodeResult) (s : State) : (noteDecoded r s).tokens = s.tokens := rfl
@[simp] theorem noteDecoded_earlier (r : DecodeResult) (s : State) : (noteDecoded r s).earlier = s.earlier := rfl
@[simp] theorem noteDecoded_decoded (r : DecodeResult) (s : State) : (noteDecoded r s).decoded = some r := rfl
@[simp] theorem noteDecoded_fed (r : DecodeResult) (s : State) : (noteDecoded r s).fed = s.fed := rfl
@[simp] theorem noteDecoded_tick (r : DecodeResult) (s : State) : (noteDecoded r s).tick = s.tick := rfl

/-! ### deliver -/

@[simp] theorem deliver_hold (t : Token) (s : State) : (deliver t s).hold = s.hold.drop t.len := rfl
@[simp] theorem deliver_inputs (t : Token) (s : State) : (deliver t s).inputs = s.inputs := rfl
@[simp] theorem deliver_offered (t : Token) (s : State) : (deliver t s).offered = s.offered := rfl
@[simp] theorem deliver_accepted (t : Token) (s : State) : (deliver t s).accepted = s.accepted := rfl
@[simp] theorem deliver_pos (t : Token) (s : State) : (deliver t s).pos = s.pos + t.len := rfl
@[simp] theorem deliver_tokens (t : Token) (s : State) : (deliver t s).tokens = s.tokens ++ [t] := rfl
@[simp] theorem deliver_earlier (t : Token) (s : State) : (deliver t s).earlier = s.earlier := rfl
@[simp] theorem deliver_decoded (t : Token) (s : State) : (deliver t s).decoded = s.decoded := rfl
@[simp] theorem deliver_fed (t : Token) (s : State) : (deliver t s).fed = s.fed := rfl
@[simp] theorem deliver_tick (t : Token) (s : State) : (deliver t s).tick = s.tick := rfl

/-! ### takeMalformed -/

@[simp] theorem takeMalformed_hold (c : Cause) (b : Byte) (s : State) : (takeMalformed c b s).hold = s.hold.drop 1 := rfl
@[simp] theorem takeMalformed_inputs (c : Cause) (b : Byte) (s : State) : (takeMalformed c b s).inputs = s.inputs := rfl
@[simp] theorem takeMalformed_offered (c : Cause) (b : Byte) (s : State) : (takeMalformed c b s).offered = s.offered := rfl
@[simp] theorem takeMalformed_accepted (c : Cause) (b : Byte) (s : State) : (takeMalformed c b s).accepted = s.accepted := rfl
@[simp] theorem takeMalformed_pos (c : Cause) (b : Byte) (s : State) : (takeMalformed c b s).pos = s.pos + 1 := rfl
@[simp] theorem takeMalformed_tokens (c : Cause) (b : Byte) (s : State) : (takeMalformed c b s).tokens = s.tokens ++ [.malTok c b] := rfl
@[simp] theorem takeMalformed_earlier (c : Cause) (b : Byte) (s : State) : (takeMalformed c b s).earlier = s.earlier := rfl
@[simp] theorem takeMalformed_decoded (c : Cause) (b : Byte) (s : State) : (takeMalformed c b s).decoded = s.decoded := rfl
@[simp] theorem takeMalformed_fed (c : Cause) (b : Byte) (s : State) : (takeMalformed c b s).fed = s.fed := rfl
@[simp] theorem takeMalformed_tick (c : Cause) (b : Byte) (s : State) : (takeMalformed c b s).tick = s.tick := rfl

/-! ### acceptByte -/

@[simp] theorem acceptByte_hold (b : Byte) (s : State) : (acceptByte b s).hold = s.hold ++ [b] := rfl
@[simp] theorem acceptByte_inputs (b : Byte) (s : State) : (acceptByte b s).inputs = s.inputs := rfl
@[simp] theorem acceptByte_offered (b : Byte) (s : State) : (acceptByte b s).offered = none := rfl
@[simp] theorem acceptByte_accepted (b : Byte) (s : State) : (acceptByte b s).accepted = s.accepted ++ [b] := rfl
@[simp] theorem acceptByte_pos (b : Byte) (s : State) : (acceptByte b s).pos = s.pos := rfl
@[simp] theorem acceptByte_tokens (b : Byte) (s : State) : (acceptByte b s).tokens = s.tokens := rfl
@[simp] theorem acceptByte_earlier (b : Byte) (s : State) : (acceptByte b s).earlier = s.earlier := rfl
@[simp] theorem acceptByte_decoded (b : Byte) (s : State) : (acceptByte b s).decoded = s.decoded := rfl
@[simp] theorem acceptByte_fed (b : Byte) (s : State) : (acceptByte b s).fed = s.fed := rfl
@[simp] theorem acceptByte_tick (b : Byte) (s : State) : (acceptByte b s).tick = s.tick := rfl

/-! ### endSession -/

@[simp] theorem endSession_hold (s : State) : (endSession s).hold = [] := rfl
@[simp] theorem endSession_inputs (s : State) : (endSession s).inputs = s.inputs := rfl
@[simp] theorem endSession_offered (s : State) : (endSession s).offered = s.offered := rfl
@[simp] theorem endSession_accepted (s : State) : (endSession s).accepted = [] := rfl
@[simp] theorem endSession_pos (s : State) : (endSession s).pos = 0 := rfl
@[simp] theorem endSession_tokens (s : State) : (endSession s).tokens = [] := rfl
@[simp] theorem endSession_earlier (s : State) : (endSession s).earlier = s.earlier ++ s.tokens := rfl
@[simp] theorem endSession_decoded (s : State) : (endSession s).decoded = none := rfl
@[simp] theorem endSession_fed (s : State) : (endSession s).fed = none := rfl
@[simp] theorem endSession_tick (s : State) : (endSession s).tick = s.tick := rfl

/-! ### keepOffered -/

@[simp] theorem keepOffered_hold (c : Command) (s : State) : (keepOffered c s).hold = s.hold := rfl
@[simp] theorem keepOffered_inputs (c : Command) (s : State) : (keepOffered c s).inputs = s.inputs := rfl
@[simp] theorem keepOffered_offered (c : Command) (s : State) : (keepOffered c s).offered = some c := rfl
@[simp] theorem keepOffered_accepted (c : Command) (s : State) : (keepOffered c s).accepted = s.accepted := rfl
@[simp] theorem keepOffered_pos (c : Command) (s : State) : (keepOffered c s).pos = s.pos := rfl
@[simp] theorem keepOffered_tokens (c : Command) (s : State) : (keepOffered c s).tokens = s.tokens := rfl
@[simp] theorem keepOffered_earlier (c : Command) (s : State) : (keepOffered c s).earlier = s.earlier := rfl
@[simp] theorem keepOffered_decoded (c : Command) (s : State) : (keepOffered c s).decoded = s.decoded := rfl
@[simp] theorem keepOffered_fed (c : Command) (s : State) : (keepOffered c s).fed = s.fed := rfl
@[simp] theorem keepOffered_tick (c : Command) (s : State) : (keepOffered c s).tick = s.tick := rfl

/-! ### takeOffered -/

@[simp] theorem takeOffered_hold (s : State) : (takeOffered s).hold = s.hold := rfl
@[simp] theorem takeOffered_inputs (s : State) : (takeOffered s).inputs = s.inputs := rfl
@[simp] theorem takeOffered_offered (s : State) : (takeOffered s).offered = none := rfl
@[simp] theorem takeOffered_accepted (s : State) : (takeOffered s).accepted = s.accepted := rfl
@[simp] theorem takeOffered_pos (s : State) : (takeOffered s).pos = s.pos := rfl
@[simp] theorem takeOffered_tokens (s : State) : (takeOffered s).tokens = s.tokens := rfl
@[simp] theorem takeOffered_earlier (s : State) : (takeOffered s).earlier = s.earlier := rfl
@[simp] theorem takeOffered_decoded (s : State) : (takeOffered s).decoded = s.decoded := rfl
@[simp] theorem takeOffered_fed (s : State) : (takeOffered s).fed = s.fed := rfl
@[simp] theorem takeOffered_tick (s : State) : (takeOffered s).tick = s.tick := rfl

/-! ### sample -/

@[simp] theorem sample_hold (s : State) : (sample s).hold = s.hold := rfl
@[simp] theorem sample_inputs (s : State) : (sample s).inputs = s.inputs.tail := rfl
@[simp] theorem sample_offered (s : State) : (sample s).offered = if s.pins.inValid then some s.pins.command else s.offered := rfl
@[simp] theorem sample_accepted (s : State) : (sample s).accepted = s.accepted := rfl
@[simp] theorem sample_pos (s : State) : (sample s).pos = s.pos := rfl
@[simp] theorem sample_tokens (s : State) : (sample s).tokens = s.tokens := rfl
@[simp] theorem sample_earlier (s : State) : (sample s).earlier = s.earlier := rfl
@[simp] theorem sample_decoded (s : State) : (sample s).decoded = s.decoded := rfl
@[simp] theorem sample_fed (s : State) : (sample s).fed = s.fed := rfl
@[simp] theorem sample_tick (s : State) : (sample s).tick = s.tick + 1 := rfl

/-! ### runFeed -/

@[simp] theorem runFeed_hold (C : List Byte) (s : State) : (runFeed C s).hold = (feed s.hold C).retained := rfl
@[simp] theorem runFeed_inputs (C : List Byte) (s : State) : (runFeed C s).inputs = s.inputs := rfl
@[simp] theorem runFeed_offered (C : List Byte) (s : State) : (runFeed C s).offered = s.offered := rfl
@[simp] theorem runFeed_accepted (C : List Byte) (s : State) : (runFeed C s).accepted = s.accepted ++ C := rfl
@[simp] theorem runFeed_pos (C : List Byte) (s : State) : (runFeed C s).pos = s.pos + (feed s.hold C).consumed := rfl
@[simp] theorem runFeed_tokens (C : List Byte) (s : State) : (runFeed C s).tokens = s.tokens ++ (feed s.hold C).toks := rfl
@[simp] theorem runFeed_earlier (C : List Byte) (s : State) : (runFeed C s).earlier = s.earlier := rfl
@[simp] theorem runFeed_decoded (C : List Byte) (s : State) : (runFeed C s).decoded = s.decoded := rfl
@[simp] theorem runFeed_fed (C : List Byte) (s : State) : (runFeed C s).fed = some (feed s.hold C) := rfl
@[simp] theorem runFeed_tick (C : List Byte) (s : State) : (runFeed C s).tick = s.tick := rfl

/-! ### placeStream -/

@[simp] theorem placeStream_hold (B : List Byte) (s : State) : (placeStream B s).hold = B := rfl
@[simp] theorem placeStream_inputs (B : List Byte) (s : State) : (placeStream B s).inputs = takePins :: s.inputs := rfl
@[simp] theorem placeStream_offered (B : List Byte) (s : State) : (placeStream B s).offered = s.offered := rfl
@[simp] theorem placeStream_accepted (B : List Byte) (s : State) : (placeStream B s).accepted = s.accepted := rfl
@[simp] theorem placeStream_pos (B : List Byte) (s : State) : (placeStream B s).pos = s.pos := rfl
@[simp] theorem placeStream_tokens (B : List Byte) (s : State) : (placeStream B s).tokens = s.tokens := rfl
@[simp] theorem placeStream_earlier (B : List Byte) (s : State) : (placeStream B s).earlier = s.earlier := rfl
@[simp] theorem placeStream_decoded (B : List Byte) (s : State) : (placeStream B s).decoded = s.decoded := rfl
@[simp] theorem placeStream_fed (B : List Byte) (s : State) : (placeStream B s).fed = s.fed := rfl
@[simp] theorem placeStream_tick (B : List Byte) (s : State) : (placeStream B s).tick = s.tick := rfl

/-! ### placeCommand -/

@[simp] theorem placeCommand_hold (c : Command) (s : State) : (placeCommand c s).hold = if resolvable s.hold then [] else s.hold := rfl
@[simp] theorem placeCommand_inputs (c : Command) (s : State) : (placeCommand c s).inputs = ⟨false, true, c.eos, c.data, false⟩ :: s.inputs := rfl
@[simp] theorem placeCommand_offered (c : Command) (s : State) : (placeCommand c s).offered = none := rfl
@[simp] theorem placeCommand_accepted (c : Command) (s : State) : (placeCommand c s).accepted = s.accepted := rfl
@[simp] theorem placeCommand_pos (c : Command) (s : State) : (placeCommand c s).pos = s.pos := rfl
@[simp] theorem placeCommand_tokens (c : Command) (s : State) : (placeCommand c s).tokens = s.tokens := rfl
@[simp] theorem placeCommand_earlier (c : Command) (s : State) : (placeCommand c s).earlier = s.earlier := rfl
@[simp] theorem placeCommand_decoded (c : Command) (s : State) : (placeCommand c s).decoded = s.decoded := rfl
@[simp] theorem placeCommand_fed (c : Command) (s : State) : (placeCommand c s).fed = s.fed := rfl
@[simp] theorem placeCommand_tick (c : Command) (s : State) : (placeCommand c s).tick = s.tick := rfl

/-! ### reset -/

@[simp] theorem reset_hold : State.reset.hold = [] := rfl
@[simp] theorem reset_inputs : State.reset.inputs = [] := rfl
@[simp] theorem reset_offered : State.reset.offered = none := rfl
@[simp] theorem reset_accepted : State.reset.accepted = [] := rfl
@[simp] theorem reset_pos : State.reset.pos = 0 := rfl
@[simp] theorem reset_tokens : State.reset.tokens = [] := rfl
@[simp] theorem reset_earlier : State.reset.earlier = [] := rfl
@[simp] theorem reset_decoded : State.reset.decoded = none := rfl
@[simp] theorem reset_fed : State.reset.fed = none := rfl
@[simp] theorem reset_tick : State.reset.tick = 0 := rfl

end Sys2Proof.Laws
end

