-- ==== Sys2Proof/Laws/Ops.lean ====
section
/-! SUPPORT. One lemma for each shared operation, saying once everything it can do, and the inversion of a step. -/

namespace Sys2Proof.Laws

open Sys2Proof.Machine

/-! ### OUT_TOKEN -/

/-- While a token is on offer, running the decode of H delivers that token. -/
theorem runResult_offered {s : State} {t : Token} (h : offeredToken s.hold = some t) :
    runResult (decode s.hold) (s.hold.headD 0) s = deliver t (noteDecoded (decode s.hold) s) := by
  obtain ⟨b0, rest, hH, ⟨l, v, hd, -, -, -, ho⟩ | ⟨c, hd, ho⟩⟩ := offered_cases (resolvable_of_offered h)
  · rw [ho] at h; cases h; rw [hd]; rfl
  · rw [ho] at h; cases h; rw [hd, hH]; rfl

theorem execOutToken_offered {s : State} {t : Token} (h : offeredToken s.hold = some t) :
    exec .outToken s = .next (deliver t (noteDecoded (decode s.hold) s)) := by
  have hr := resolvable_of_offered h
  simp only [exec, execOutToken, outValid_eq, hr, if_true, runResult_offered h]

theorem execOutToken_rest {s : State} (h : resolvable s.hold = false) : exec .outToken s = .next s := by
  simp [exec, execOutToken, h]

/-! ### The input channel -/

theorem execInByte_ready {s : State} (d : Byte) (h : resolvable s.hold = false) :
    exec (.inByte d) s = .next (acceptByte d s) := by simp [exec, execInByte, h]

theorem execInByte_wait {s : State} (d : Byte) (h : resolvable s.hold = true) :
    exec (.inByte d) s = .next (keepOffered ⟨false, d⟩ s) := by simp [exec, execInByte, h]

theorem execInEos_ready {s : State} (x : Byte) (h : resolvable s.hold = false) :
    exec (.inEos x) s = .next (takeOffered (endSession s)) := by simp [exec, execInEos, h]

theorem execInEos_wait {s : State} (x : Byte) (h : resolvable s.hold = true) :
    exec (.inEos x) s = .next (keepOffered ⟨true, x⟩ s) := by simp [exec, execInEos, h]

theorem decodeCmd_append (e : Bool) (d : Byte) :
    decodeCmd (BitVec.ofBool e ++ d) = if e then .inEos d else .inByte d := by
  revert d; cases e <;> exact forall_byte_of_fin (by decide +kernel)

/-! ### The instruction decoder at a buffer at rest -/

/-- An incomplete frame is a NEEDMORE. -/
theorem decodeInstr_short {b0 : Byte} {rest : List Byte} {i : Nat} (hl : leadLen b0 = some i) (h2 : 2 ≤ i)
    (hs : rest.length + 1 < i) : decodeInstr (b0 :: rest) = .ok (.needMore b0 rest) := by
  have hc := leadLen_eq_class b0
  rw [hl] at hc
  cases hk : leadClass b0 <;> rw [hk] at hc <;> simp only [Option.some.injEq, reduceCtorEq] at hc <;> subst hc <;>
    first
    | (simp only [decodeInstr, hk, decodeMulti]; rw [if_pos (by omega)])
    | omega

/-! ### FEED -/

/-- Any fuel that covers the buffer does. -/
theorem feedLoop_fuel : ∀ (n : Nat) (buf : List Byte), buf.length ≤ n → feedLoop n buf = feedLoop buf.length buf := by
  intro n
  induction n using Nat.strongRecOn with
  | ind n ih =>
    intro buf hn
    cases buf with
    | nil => cases n <;> rfl
    | cons b0 rest =>
      cases n with
      | zero => simp at hn
      | succ n =>
        simp only [List.length_cons, Nat.add_le_add_iff_right] at hn
        simp only [List.length_cons, feedLoop]
        have key : ∀ k, 1 ≤ k → feedLoop n ((b0 :: rest).drop k) = feedLoop rest.length ((b0 :: rest).drop k) := by
          intro k hk
          have hlen : ((b0 :: rest).drop k).length ≤ rest.length := by simp; omega
          rw [ih n (by omega) _ (by omega)]
          by_cases he : rest.length < n + 1
          · rw [ih rest.length he _ hlen]
          · omega
        cases hr : resolvable (b0 :: rest) with
        | true =>
          obtain ⟨_, _, -, ⟨l, v, hd, h1, -, -, -⟩ | ⟨c, hd, -⟩⟩ := offered_cases hr
          · rw [hd]; simp only [key l h1]
          · rw [hd]; simp only [key 1 (Nat.le_refl 1)]
        | false =>
          rcases rest_cases hr with h | ⟨_, _, i, -, -, -, -, -, hd⟩
          · simp at h
          · rw [hd]

theorem feed_eq (R C : List Byte) : feed R C = feed [] (R ++ C) := by simp [feed]

/-- FEED on a buffer at rest returns it. -/
theorem feed_rest {B : List Byte} (h : resolvable B = false) : feed [] B = ⟨[], B, 0, needLenNat B⟩ := by
  rcases rest_cases h with rfl | ⟨b0, rest, i, rfl, -, -, -, -, hd⟩
  · rfl
  · simp [feed, feedLoop, hd, needLenNat]

/-- FEED on a resolvable buffer gives the offered token, then feeds what is left after it. -/
theorem feed_offered {B : List Byte} {t : Token} (h : offeredToken B = some t) :
    feed [] B =
      ⟨t :: (feed [] (B.drop t.len)).toks, (feed [] (B.drop t.len)).retained,
        t.len + (feed [] (B.drop t.len)).consumed, (feed [] (B.drop t.len)).need⟩ := by
  obtain ⟨b0, rest, rfl, hcase⟩ := offered_cases (resolvable_of_offered h)
  have key : ∀ k, 1 ≤ k → feedLoop rest.length ((b0 :: rest).drop k) = feed [] ((b0 :: rest).drop k) := by
    intro k hk
    rw [feedLoop_fuel rest.length _ (by simp; omega)]
    simp [feed]
  rcases hcase with ⟨l, v, hd, h1, -, -, ho⟩ | ⟨c, hd, ho⟩
  · rw [ho] at h; cases h
    conv_lhs => rw [feed, List.nil_append, List.length_cons, feedLoop, hd]
    simp only [key l h1, Token.len]
  · rw [ho] at h; cases h
    conv_lhs => rw [feed, List.nil_append, List.length_cons, feedLoop, hd]
    simp only [key 1 (Nat.le_refl 1), Token.len]

/-! ### The step -/

/-- Everything a step can do. -/
theorem step_cases {s t : State} (h : step s = .next t) :
    commandChanged s = false ∧
    ((s.pins.rst = true ∧ t = endSession (sample s)) ∨
     (s.pins.rst = false ∧ resolvable s.hold = true ∧
        ((s.pins.outReady = true ∧ ∃ k, offeredToken s.hold = some k ∧
            t = deliver k (noteDecoded (decode s.hold) (sample s))) ∨
         (s.pins.outReady = false ∧ t = sample s))) ∨
     (s.pins.rst = false ∧ resolvable s.hold = false ∧ s.pins.inValid = true ∧
        ((s.pins.inEos = false ∧ t = acceptByte s.pins.inData (sample s)) ∨
         (s.pins.inEos = true ∧ t = takeOffered (endSession (sample s))))) ∨
     (s.pins.rst = false ∧ resolvable s.hold = false ∧ s.pins.inValid = false ∧
        ((s.hold = [] ∧ t = sample s) ∨
         (s.hold ≠ [] ∧ t = noteDecoded (decode s.hold) (sample s))))) := by
  unfold step at h
  cases hc : commandChanged s
  · refine ⟨rfl, ?_⟩
    rw [hc] at h
    simp only [Bool.false_eq_true, if_false, event] at h
    cases hrst : s.pins.rst
    · right
      simp only [hrst, Bool.false_eq_true, if_false] at h
      cases hr : resolvable s.hold
      · right
        simp only [outValid_eq, hr, Bool.false_eq_true, if_false] at h
        cases hv : s.pins.inValid
        · right
          simp only [hv, Bool.false_eq_true, if_false] at h
          refine ⟨rfl, rfl, rfl, ?_⟩
          rcases rest_cases hr with hn | ⟨b0, rest, i, hb, hl, h2, -, hlt, hd⟩
          · left
            rw [hn] at h
            simp only [decodeInstr] at h
            cases h; exact ⟨hn, rfl⟩
          · right
            have hlt' : rest.length + 1 < i := by rw [hb] at hlt; simpa using hlt
            rw [hb, decodeInstr_short hl h2 hlt'] at h
            simp only [exec, execNeedMore, runResult, need_of_leadLen hl] at h
            cases h
            exact ⟨by simp [hb], by rw [hd]⟩
        · left
          simp only [hv, if_true, Command.word, decodeCmd_append, Pins.command] at h
          refine ⟨rfl, rfl, rfl, ?_⟩
          cases he : s.pins.inEos
          · left
            simp only [he, Bool.false_eq_true, if_false] at h
            rw [execInByte_ready _ (by simpa using hr)] at h
            cases h; exact ⟨rfl, rfl⟩
          · right
            simp only [he, if_true] at h
            rw [execInEos_ready _ (by simpa using hr)] at h
            cases h; exact ⟨rfl, rfl⟩
      · left
        simp only [outValid_eq, hr, if_true] at h
        refine ⟨rfl, rfl, ?_⟩
        cases hq : s.pins.outReady
        · right
          simp only [hq, Bool.false_eq_true, if_false] at h
          cases h; exact ⟨rfl, rfl⟩
        · left
          simp only [hq, if_true] at h
          obtain ⟨k, hk⟩ := Option.isSome_iff_exists.1 ((offeredToken_isSome s.hold).trans hr)
          rw [execOutToken_offered (s := sample s) (by simpa using hk)] at h
          cases h; exact ⟨rfl, k, hk, rfl⟩
    · left
      simp only [hrst, if_true] at h
      cases h; exact ⟨rfl, rfl⟩
  · rw [hc] at h; simp at h

end Sys2Proof.Laws
end

