-- ==== Sys2Proof/Laws/PerInstr.lean ====
section
/-! SUPPORT. A statement about every instruction as syntax, one lemma per constructor: the words of a well-formed
instruction that stands in the stream are 1 to 6 bytes (30_encoding.md R60). -/

namespace Sys2Proof.Laws.EncodedSize

/-- A stream instruction's words are one frame's bytes at most. -/
def Statement (i : Instr) : Prop :=
  WellFormed i = true → ∀ B, encode i = .stream B → 1 ≤ B.length ∧ B.length ≤ Config.maxFrameLen

theorem of_fillsFrame {tag : BitVec 2} {lead : Byte} {good : List (BitVec 6)} {x : BitVec 6} {after : List Byte}
    (h : fillsFrame lead (good.length + 1 + after.length) = true) :
    1 ≤ (badContBytes tag lead good x after).length ∧
      (badContBytes tag lead good x after).length ≤ Config.maxFrameLen := by
  unfold fillsFrame at h
  split at h
  · have hr := leadLen_range lead _ ‹_›
    simp at h
    simp [badContBytes, Config.maxFrameLen]
    omega
  · simp at h

theorem frame1 (v : BitVec 7) : Statement (.frame1 v) := by
  intro _ B h; cases h; exact ⟨by simp, by simp [Config.maxFrameLen]⟩
theorem frame2 (v : BitVec 11) : Statement (.frame2 v) := by
  intro _ B h; cases h; exact ⟨by simp, by simp [Config.maxFrameLen]⟩
theorem frame3 (v : BitVec 16) : Statement (.frame3 v) := by
  intro _ B h; cases h; exact ⟨by simp, by simp [Config.maxFrameLen]⟩
theorem frame4 (v : BitVec 21) : Statement (.frame4 v) := by
  intro _ B h; cases h; exact ⟨by simp, by simp [Config.maxFrameLen]⟩
theorem frame5 (v : BitVec 26) : Statement (.frame5 v) := by
  intro _ B h; cases h; exact ⟨by simp, by simp [Config.maxFrameLen]⟩
theorem frame6 (v : BitVec 31) : Statement (.frame6 v) := by
  intro _ B h; cases h; exact ⟨by simp, by simp [Config.maxFrameLen]⟩
theorem badLead (x : BitVec 6) : Statement (.badLead x) := by
  intro _ B h; cases h; exact ⟨by simp, by simp [Config.maxFrameLen]⟩
theorem badLeadFE : Statement .badLeadFE := by
  intro _ B h; cases h; exact ⟨by simp, by simp [Config.maxFrameLen]⟩
theorem badLeadFF : Statement .badLeadFF := by
  intro _ B h; cases h; exact ⟨by simp, by simp [Config.maxFrameLen]⟩
theorem badCont00 (lead : Byte) (good : List (BitVec 6)) (x : BitVec 6) (after : List Byte) :
    Statement (.badCont00 lead good x after) := by
  intro hw B h; cases h; exact of_fillsFrame hw
theorem badCont01 (lead : Byte) (good : List (BitVec 6)) (x : BitVec 6) (after : List Byte) :
    Statement (.badCont01 lead good x after) := by
  intro hw B h; cases h; exact of_fillsFrame hw
theorem badCont11 (lead : Byte) (good : List (BitVec 6)) (x : BitVec 6) (after : List Byte) :
    Statement (.badCont11 lead good x after) := by
  intro hw B h; cases h; exact of_fillsFrame hw
theorem needMore (lead : Byte) (present : List Byte) : Statement (.needMore lead present) := by
  intro hw B h
  cases h
  simp only [WellFormed, fallsShort] at hw
  split at hw
  · have hr := leadLen_range lead _ ‹_›
    simp at hw
    simp [Config.maxFrameLen]
    omega
  · simp at hw
theorem decode (C : List Byte) : Statement (.decode C) := by intro _ B h; cases h
theorem inByte (d : Byte) : Statement (.inByte d) := by intro _ B h; cases h
theorem inEos (x : Byte) : Statement (.inEos x) := by intro _ B h; cases h
theorem outToken : Statement .outToken := by intro _ B h; cases h
theorem reset : Statement .reset := by intro _ B h; cases h
theorem feed (C : List Byte) : Statement (.feed C) := by intro _ B h; cases h

end Sys2Proof.Laws.EncodedSize
end

