-- ==== Sys2Proof/Laws/Session.lean ====
section
/-! SUPPORT. The chain of frame starts (R109): it exists, it is unique, it goes on over following bytes; and the
induction along it. -/

namespace Sys2Proof.Laws

open Sys2Proof.Machine Sys2Proof.Safety

/-- Induction along the frame starts of a buffer: at rest, or one token and then what is left after it. -/
theorem stream_induction {P : List Byte → Prop} (rest : ∀ B, resolvable B = false → P B)
    (turn : ∀ B t, offeredToken B = some t → P (B.drop t.len) → P B) (B : List Byte) : P B := by
  generalize hn : B.length = n
  induction n using Nat.strongRecOn generalizing B with
  | ind n ih =>
    cases hr : resolvable B with
    | false => exact rest B hr
    | true =>
      obtain ⟨t, ht⟩ := Option.isSome_iff_exists.1 ((offeredToken_isSome B).trans hr)
      have hl := offered_len ht
      exact turn B t ht (ih (B.drop t.len).length (by rw [List.length_drop]; omega) _ rfl)

theorem frameStarts_rest {S : List Byte} {ts : List Token} {R : List Byte} (h : FrameStarts S ts R) :
    resolvable R = false := by
  induction h with
  | stop _ h => exact h
  | next _ _ _ _ _ _ ih => exact ih

theorem frameStarts_unique {S : List Byte} {ts us : List Token} {R Q : List Byte} (h : FrameStarts S ts R)
    (g : FrameStarts S us Q) : us = ts ∧ Q = R := by
  induction h generalizing us Q with
  | stop S hr =>
    cases g with
    | stop => exact ⟨rfl, rfl⟩
    | next _ t _ _ ho => simp [resolvable_of_offered ho] at hr
  | next S t ts R ho _ ih =>
    cases g with
    | stop _ hr => simp [resolvable_of_offered ho] at hr
    | next _ u us Q ho' hg =>
      rw [ho] at ho'; cases ho'
      obtain ⟨rfl, rfl⟩ := ih hg
      exact ⟨rfl, rfl⟩

/-- R108's reason: the chain of a stream's front goes on from what it leaves over. -/
theorem frameStarts_append {A : List Byte} {T : List Token} {H : List Byte} (h : FrameStarts A T H) {X : List Byte}
    {ts : List Token} {R : List Byte} (g : FrameStarts (H ++ X) ts R) : FrameStarts (A ++ X) (T ++ ts) R := by
  induction h with
  | stop => exact g
  | next S t us Q ho _ ih =>
    refine .next _ t _ _ (offeredToken_append ho X) ?_
    rw [List.drop_append_of_le_length (offered_len ho).2.1]
    exact ih g

theorem frameStarts_feed (B : List Byte) : FrameStarts B (feed [] B).toks (feed [] B).retained := by
  induction B using stream_induction with
  | rest B h => rw [feed_rest h]; exact .stop B h
  | turn B t h ih => rw [feed_offered h]; exact .next B t _ _ h ih

theorem feed_of_frameStarts {B : List Byte} {ts : List Token} {R : List Byte} (h : FrameStarts B ts R) :
    (feed [] B).toks = ts ∧ (feed [] B).retained = R :=
  frameStarts_unique h (frameStarts_feed B)

end Sys2Proof.Laws
end

