-- ==== Sys2Proof/Tests/Slice0.lean ====
section
/-! SUPPORT. Tests: the words of each row written out from the spec's encodings, ill-formed terms, single steps against
95_test_vectors.md, and a witness for the hypotheses of each obligation. Expected results are the spec's, by the section
named beside each group. -/

namespace Sys2Proof.Tests

open Sys2Proof.Machine Sys2Proof.Safety

/-- A block that holds `H`, with the samples `ps` to come, else as after reset. -/
def holding (H : List Byte) (ps : List Pins) : State := { State.reset with hold := H, inputs := ps }

/-- What a test looks at: H and the session's tokens after the operation. -/
def seen : Host.Outcome State Fault Refusal → Option (List Byte × List Token)
  | .next t => some (t.hold, t.tokens)
  | .fault _ => none
  | .refused _ => none

/-- The next state, for the fields a test names. -/
def after (o : Host.Outcome State Fault Refusal) : State :=
  match o with
  | .next t => t
  | .fault _ => State.reset
  | .refused _ => State.reset

/-! ## Ill-formed terms are refused (R94, R95) -/

theorem test_wf_badCont_needs_all_bytes : WellFormed (.badCont01 0xE2 [] 0x01 []) = false := by decide
theorem test_wf_badCont_not_too_many : WellFormed (.badCont00 0xC3 [] 0x01 [0x80]) = false := by decide
theorem test_wf_badCont_needs_multibyte_lead : WellFormed (.badCont11 0x41 [] 0x01 []) = false := by decide
theorem test_wf_needMore_must_fall_short : WellFormed (.needMore 0xC3 [0xA9]) = false := by decide
theorem test_wf_needMore_needs_multibyte_lead : WellFormed (.needMore 0x80 []) = false := by decide
theorem test_wf_accepts_badCont : WellFormed (.badCont01 0xE2 [0x02] 0x01 []) = true := by decide
theorem test_wf_accepts_needMore : WellFormed (.needMore 0xE0 [0x41]) = true := by decide

/-! ## Each row's words, written out from R61, R63, R64, R71 -/

theorem test_word_frame1 : decodeInstr [0b01000001#8] = .ok (.frame1 0b1000001#7) := by decide
theorem test_word_frame2 : decodeInstr [0b11000011#8, 0b10101001#8] = .ok (.frame2 0b00011101001#11) := by decide
theorem test_word_frame3 :
    decodeInstr [0b11100010#8, 0b10000010#8, 0b10101100#8] = .ok (.frame3 0b0010000010101100#16) := by decide
theorem test_word_frame4 :
    decodeInstr [0b11110000#8, 0b10011101#8, 0b10000100#8, 0b10011110#8] =
      .ok (.frame4 0b000011101000100011110#21) := by decide
theorem test_word_frame5 :
    decodeInstr [0b11111010#8, 0b10000000#8, 0b10001010#8, 0b10000000#8, 0b10001010#8] =
      .ok (.frame5 0b10000000001010000000001010#26) := by decide
theorem test_word_frame6 :
    decodeInstr [0b11111101#8, 0b10000000#8, 0b10000000#8, 0b10000000#8, 0b10000000#8, 0b10100101#8] =
      .ok (.frame6 0b1000000000000000000000000100101#31) := by decide
theorem test_word_badLead : decodeInstr [0b10111111#8, 0b01000001#8] = .ok (.badLead 0b111111#6) := by decide
theorem test_word_badLeadFE : decodeInstr [0b11111110#8, 0b10000000#8] = .ok .badLeadFE := by decide
theorem test_word_badLeadFF : decodeInstr [0b11111111#8] = .ok .badLeadFF := by decide
theorem test_word_badCont00 :
    decodeInstr [0b11111100#8, 0b00111111#8, 0x80, 0x80, 0x80, 0x80] =
      .ok (.badCont00 0b11111100#8 [] 0b111111#6 [0x80, 0x80, 0x80, 0x80]) := by decide
theorem test_word_badCont01 :
    decodeInstr [0b11100010#8, 0b10000010#8, 0b01000001#8] =
      .ok (.badCont01 0b11100010#8 [0b000010#6] 0b000001#6 []) := by decide
theorem test_word_badCont11 :
    decodeInstr [0b11000011#8, 0b11000011#8, 0b10101001#8] = .ok (.badCont11 0b11000011#8 [] 0b000011#6 []) := by
  decide
theorem test_word_needMore : decodeInstr [0b11100000#8, 0b01000001#8] = .ok (.needMore 0b11100000#8 [0b01000001#8]) := by
  decide
theorem test_word_inByte : decodeCmd 0b011000011#9 = .inByte 0b11000011#8 := by decide
theorem test_word_inEos : decodeCmd 0b100000000#9 = .inEos 0 := by decide
theorem test_wire_feed : decodeWire (.chunk [0b011100010#9, 0b010000010#9]) = .ok (.feed [0xE2, 0x82]) := by decide
theorem test_wire_decode : decodeWire (.buffer [0xC3, 0xA9]) = .ok (.decode [0xC3, 0xA9]) := by decide
theorem test_wire_outToken : decodeWire .outReady = .ok .outToken := by decide
theorem test_wire_reset : decodeWire .rstPin = .ok .reset := by decide
theorem test_reject_empty : decodeWire (.stream []) = .error .emptyBuffer := by decide
theorem test_reject_eos_in_chunk : decodeWire (.chunk [0b001000001#9, 0b100000000#9]) = .error .eosInChunk := by decide

/-! ## DECODE at its corners (95_test_vectors.md 2.2) -/

theorem test_decode_extremes :
    [decode [0xC0, 0x80], decode [0xDF, 0xBF], decode [0xEF, 0xBF, 0xBF], decode [0xF7, 0xBF, 0xBF, 0xBF],
      decode [0xFB, 0xBF, 0xBF, 0xBF, 0xBF], decode [0xFD, 0xBF, 0xBF, 0xBF, 0xBF, 0xBF]] =
    [.frame 2 0, .frame 2 0x7FF, .frame 3 0xFFFF, .frame 4 0x1FFFFF, .frame 5 0x3FFFFFF, .frame 6 0x7FFFFFFF] := by
  decide
theorem test_decode_outcomes :
    [decode [0xE0, 0x41], decode [0xE2, 0x41, 0x80], decode [0xE2, 0x82, 0xC0], decode [0xFE, 0x80],
      decode [0xF0, 0x9D, 0x84, 0x7E], decode [0xFC, 0x80, 0x80, 0x80, 0x80], decode []] =
    [.needMore 3, .malformed .badCont, .malformed .badCont, .malformed .badLead, .malformed .badCont, .needMore 6,
      .needMore 1] := by
  decide

/-! ## Pseudo-frames (R73's examples) -/

theorem test_char_examples :
    [char 0x41, char 0xE9, char 0x20AC, char 0x1D11E] =
      [some [0x41], some [0xC3, 0xA9], some [0xE2, 0x82, 0xAC], some [0xF0, 0x9D, 0x84, 0x9E]] := by decide
theorem test_move_example : move (-5) 10 = some [0xFA, 0x80, 0x8A, 0x80, 0x8A] := by decide
theorem test_key_example : key 37 = some [0xFC, 0x80, 0x80, 0x80, 0x80, 0xA5] := by decide

/-! ## FEED (95_test_vectors.md 2.3) -/

theorem test_feed_split : feed [0xE2, 0x82] [0xAC, 0x41] = ⟨[.frameTok 3 0x20AC, .frameTok 1 0x41], [], 4, 0⟩ := by
  decide
theorem test_feed_tail : feed [0xC3] [0xC3, 0xA9, 0xE2] = ⟨[.malTok .badCont 0xC3, .frameTok 2 0xE9], [0xE2], 3, 3⟩ := by
  decide

/-! ## Output lines (95_test_vectors.md 2.4, 2.7) -/

theorem test_status :
    [statusWord [], statusWord [0xC3], statusWord [0xF0, 0x9D, 0x84], statusWord [0xFC, 0x80, 0x80, 0x80, 0x80],
      statusWord [0xFF, 0x41], statusWord [0xFC, 0x80, 0x80, 0x80, 0x80, 0x41]] =
    [0x80, 0x91, 0xA3, 0xB5, 0x42, 0x46] := by decide
theorem test_token_words :
    [packToken (.frameTok 1 0x41), packToken (.malTok .badCont 0xFC), packToken (.malTok .badLead 0x80),
      packToken (.frameTok 6 0x7FFFFFFF)] = [0x080000041, 0xC800000FC, 0x880000080, 0x37FFFFFFF] := by decide

/-! ## Single operations (95_test_vectors.md 2.4 to 2.6, R88 to R105) -/

theorem test_exec_frame1 : seen (exec (.frame1 0x41) (holding [0x41, 0xC3] [])) = some ([0xC3], [.frameTok 1 0x41]) := by
  decide
theorem test_exec_frame2 : seen (exec (.frame2 0xE9) (holding [0xC3, 0xA9] [])) = some ([], [.frameTok 2 0xE9]) := by
  decide
theorem test_exec_frame3 :
    seen (exec (.frame3 0x20AC) (holding [0xE2, 0x82, 0xAC] [])) = some ([], [.frameTok 3 0x20AC]) := by decide
theorem test_exec_frame4 :
    seen (exec (.frame4 0x1D11E) (holding [0xF0, 0x9D, 0x84, 0x9E] [])) = some ([], [.frameTok 4 0x1D11E]) := by decide
theorem test_exec_frame5 :
    seen (exec (.frame5 0x200A00A) (holding [0xFA, 0x80, 0x8A, 0x80, 0x8A] [])) = some ([], [.frameTok 5 0x200A00A]) := by
  decide
theorem test_exec_frame6 :
    seen (exec (.frame6 37) (holding [0xFC, 0x80, 0x80, 0x80, 0x80, 0xA5] [])) = some ([], [.frameTok 6 37]) := by decide
theorem test_exec_badLead :
    seen (exec (.badLead 0x3F) (holding [0xBF, 0x41] [])) = some ([0x41], [.malTok .badLead 0xBF]) := by decide
theorem test_exec_badLeadFE :
    seen (exec .badLeadFE (holding [0xFE, 0x80] [])) = some ([0x80], [.malTok .badLead 0xFE]) := by decide
theorem test_exec_badLeadFF :
    seen (exec .badLeadFF (holding [0xFF, 0x41] [])) = some ([0x41], [.malTok .badLead 0xFF]) := by decide
theorem test_exec_badCont00 :
    seen (exec (.badCont00 0xC3 [] 0 []) (holding [0xC3, 0x00] [])) = some ([0x00], [.malTok .badCont 0xC3]) := by decide
theorem test_exec_badCont01 :
    seen (exec (.badCont01 0xE2 [0x02] 0x01 []) (holding [0xE2, 0x82, 0x41] [])) =
      some ([0x82, 0x41], [.malTok .badCont 0xE2]) := by decide
theorem test_exec_badCont11 :
    seen (exec (.badCont11 0xC3 [] 0x03 []) (holding [0xC3, 0xC3, 0xA9] [])) =
      some ([0xC3, 0xA9], [.malTok .badCont 0xC3]) := by decide
theorem test_exec_needMore :
    (after (exec (.needMore 0xF8 [0x80]) (holding [0xF8, 0x80] []))).decoded = some (.needMore 5) ∧
      seen (exec (.needMore 0xF8 [0x80]) (holding [0xF8, 0x80] [])) = some ([0xF8, 0x80], []) := by decide
theorem test_exec_decode :
    (after (exec (.decode [0xC3, 0xA9, 0x41]) (holding [0xE2] []))).decoded = some (.frame 2 0xE9) ∧
      seen (exec (.decode [0xC3, 0xA9, 0x41]) (holding [0xE2] [])) = some ([0xE2], []) := by decide
theorem test_exec_inByte :
    seen (exec (.inByte 0xAC) (holding [0xE2, 0x82] [])) = some ([0xE2, 0x82, 0xAC], []) := by decide
theorem test_exec_inByte_waits :
    seen (exec (.inByte 0xAC) (holding [0x41] [])) = some ([0x41], []) ∧
      (after (exec (.inByte 0xAC) (holding [0x41] []))).offered = some ⟨false, 0xAC⟩ := by decide
theorem test_exec_inEos : seen (exec (.inEos 0xFF) (holding [0xE0, 0x41] [])) = some ([], []) := by decide
theorem test_exec_inEos_waits : seen (exec (.inEos 0) (holding [0xC3, 0xC3] [])) = some ([0xC3, 0xC3], []) := by decide
theorem test_exec_outToken :
    seen (exec .outToken (holding [0xFC, 0x80, 0x80, 0x80, 0x80, 0x41] [])) =
      some ([0x80, 0x80, 0x80, 0x80, 0x41], [.malTok .badCont 0xFC]) := by decide
theorem test_exec_outToken_waits : seen (exec .outToken (holding [0xE0, 0x41] [])) = some ([0xE0, 0x41], []) := by decide
theorem test_exec_reset : seen (exec .reset (holding [0xFF, 0x41] [])) = some ([], []) := by decide
theorem test_exec_feed :
    seen (exec (.feed [0x80]) (holding [0xE0, 0x41] [])) =
      some ([], [.malTok .badCont 0xE0, .frameTok 1 0x41, .malTok .badLead 0x80]) := by decide

/-! ## Single steps -/

theorem test_step_reset_wins :
    seen (step (holding [0x41] [⟨true, true, false, 0x42, true⟩])) = some ([], []) := by decide
theorem test_step_token_before_byte :
    seen (step (holding [0x41] [⟨false, true, false, 0x42, true⟩])) = some ([], [.frameTok 1 0x41]) ∧
      (after (step (holding [0x41] [⟨false, true, false, 0x42, true⟩]))).offered = some ⟨false, 0x42⟩ := by decide
theorem test_step_backpressure :
    seen (step (holding [0x41] [⟨false, true, false, 0x42, false⟩])) = some ([0x41], []) := by decide
theorem test_step_idle_after_reset : step State.reset = .next { State.reset with tick := 1 } := by rfl
theorem test_step_changed_command :
    step { holding [] [bytePins 0x42] with offered := some ⟨false, 0x41⟩ } = .fault .commandChanged := by rfl

/-! ## The opcode table's words, as the host asks for them (log 10) -/

theorem test_table_words :
    [decodeTableWord 8 0x00, decodeTableWord 8 0xC0, decodeTableWord 8 0xE0, decodeTableWord 8 0xF0,
      decodeTableWord 8 0xF8, decodeTableWord 8 0xFC, decodeTableWord 8 0x80, decodeTableWord 8 0xFE,
      decodeTableWord 8 0xFF, decodeTableWord 16 0x000, decodeTableWord 16 0x100] =
    [some (.frame1 0), some (.frame2 0), some (.frame3 0), some (.frame4 0), some (.frame5 0), some (.frame6 0),
      some (.badLead 0), some .badLeadFE, some .badLeadFF, some (.inByte 0), some (.inEos 0)] := by decide
theorem test_table_word_two_bytes : decodeTableWord 16 0xA9C3 = some (.frame2 0xE9) := by decide
theorem test_fetch_frame6 :
    step (State.reset.withFetchWord 8 0xFC) = exec (.frame6 0) (sample (State.reset.withFetchWord 8 0xFC)) := by rfl
theorem test_fetch_badLead :
    step (State.reset.withFetchWord 8 0x80) = exec (.badLead 0) (sample (State.reset.withFetchWord 8 0x80)) := by rfl
theorem test_fetch_inByte :
    step (State.reset.withFetchWord 16 0x041) = exec (.inByte 0x41) (sample (State.reset.withFetchWord 16 0x041)) := by
  rfl
theorem test_fetch_inEos :
    step (State.reset.withFetchWord 16 0x100) = exec (.inEos 0) (sample (State.reset.withFetchWord 16 0x100)) := by rfl

/-! ## The consumer boundary (95_test_vectors.md 2.9) -/

theorem test_motion_corners :
    [motionOf 0, motionOf 0x2000000, motionOf 0x1000, motionOf 0x1FFFFFF, motionOf 0x3FFEFFF, motionOf 0x2002001] =
      [(0, 0), (0, 0), (0, 0), (4095, -4095), (-4095, 4095), (-1, 1)] := by decide
theorem test_index_examples :
    [interpret (.frameTok 6 0), interpret (.frameTok 6 4), interpret (.frameTok 6 5), interpret (.frameTok 6 35),
      interpret (.frameTok 6 36), interpret (.frameTok 6 37), interpret (.frameTok 2 0)] =
    [some .clickLeft, some (.scroll (-1)), some .modifierCtrl, some .pressLeft, some .releaseLeft, some .unknownIndex,
      some .heartbeat] := by decide

/-! ## Witnesses: for each obligation with hypotheses, values that meet all of them together. Where an obligation has
several clauses, one witness for each, at a boundary where there is one. -/

theorem witness_LeadLengthBothForms : (2 ≤ 2 ∧ 2 ≤ 6 ∧ leadLen 0xC0 = some 2) ∧ (2 ≤ 6 ∧ 6 ≤ 6 ∧ leadLen 0xFD = some 6) := by
  decide
theorem witness_ContinuationBytes : isCont 0x80 = true ∧ isCont 0xBF = true ∧ isCont 0xC0 = false := by decide
theorem witness_PayloadWidthsAreExact :
    decode [0x7F] = .frame 1 0x7F ∧ decode [0xFD, 0xBF, 0xBF, 0xBF, 0xBF, 0xBF] = .frame 6 0x7FFFFFFF ∧
      0x7FFFFFFF < 2 ^ Config.payloadWidth 6 ∧ 127 < 2 ^ Config.payloadWidth 1 := by decide
theorem witness_FrameValueIsBigEndian : decode [0x7F] = .frame 1 0x7F ∧ decode [0xDF, 0xBF] = .frame 2 0x7FF := by decide
theorem witness_TokenWords :
    offeredToken [0x41] = some (.frameTok 1 0x41) ∧ offeredToken [0xFF] = some (.malTok .badLead 0xFF) ∧
      offeredToken [0xC3, 0x41] = some (.malTok .badCont 0xC3) := by decide
theorem witness_EncodedFrameDecodesBack : 1 ≤ 6 ∧ 6 ≤ 6 ∧ 2 ^ 31 - 1 < 2 ^ Config.payloadWidth 6 := by decide
theorem witness_EncodeThenDecode :
    WellFormed (.badCont11 0xFD [0, 0, 0, 0] 0x3F []) = true ∧ WellFormed (.needMore 0xFC [0, 0, 0, 0]) = true := by
  decide
theorem witness_FollowingBytesDoNotMatter :
    WellFormed (.badCont01 0xC3 [] 0x01 []) = true ∧ encode (.badCont01 0xC3 [] 0x01 []) = .stream [0xC3, 0x41] ∧
      ∀ lead present, Instr.badCont01 0xC3 [] 0x01 [] ≠ .needMore lead present :=
  ⟨by decide, by decide, fun _ _ h => by cases h⟩
theorem witness_InstructionDecoderAgreesWithDecode : decodeInstr [0xE0, 0x41] = .ok (.needMore 0xE0 [0x41]) := by decide
theorem witness_DecodeChecksInOrder :
    (0x7F : Byte).getLsbD 7 = false ∧ leadLen 0x80 = none ∧ (2 ≤ 3 ∧ leadLen 0xE0 = some 3) ∧
      ([0xE0, 0x41] : List Byte).length < 3 ∧
      (3 ≤ ([0xE2, 0x82, 0x41] : List Byte).length ∧
        (([0xE2, 0x82, 0x41] : List Byte).getD 2 0).extractLsb' 6 2 ≠ 0b10#2) ∧
      (3 ≤ ([0xE2, 0x82, 0xAC] : List Byte).length ∧
        (([0xE2, 0x82, 0xAC] : List Byte).getD 1 0).extractLsb' 6 2 = 0b10#2 ∧
        (([0xE2, 0x82, 0xAC] : List Byte).getD 2 0).extractLsb' 6 2 = 0b10#2) := by decide
theorem witness_FrameFormatsDecode :
    (0xF8 ≤ (0xFB : Byte).toNat ∧ (0xFB : Byte).toNat ≤ 0xFB) ∧ ([0x80] : List Byte).length + 1 < 5 ∧
      5 ≤ ([0x80, 0x80, 0x80, 0x40] : List Byte).length + 1 ∧
      ∃ c ∈ ([0x80, 0x80, 0x80, 0x40] : List Byte).take 4, c.extractLsb' 6 2 ≠ 0b10#2 := by decide
theorem witness_BadLeadNeedsOneByte : decode [0x80, 0x41] = .malformed .badLead ∧ decode [0xFE] = .malformed .badLead := by
  decide
theorem witness_BadContExactlyWhen : decode [0xFC, 0x80, 0x80, 0x80, 0x80, 0xC1] = .malformed .badCont := by decide
theorem witness_NeedMoreExactlyWhenShort :
    leadLen 0xC0 = some 2 ∧ leadLen 0xFD = some 6 ∧ leadLen 0x7F = some 1 ∧ leadLen 0xBF = none := by decide
theorem witness_DecodeIsLocal :
    (need 0xC3 ≤ ([0xC3, 0xA9] : List Byte).length ∧ need 0xC3 ≤ ([0xC3, 0xA9, 0x41] : List Byte).length ∧
      ([0xC3, 0xA9] : List Byte).take (need 0xC3) = ([0xC3, 0xA9, 0x41] : List Byte).take (need 0xC3)) ∧
    (([0xE0] : List Byte).length < need 0xE0 ∧ ([0xE0, 0x41] : List Byte).length < need 0xE0) := by decide
theorem witness_TokenConstruction :
    decode [0x41] = .frame 1 0x41 ∧ decode [0xFF] = .malformed .badLead ∧ decode [0xFC] = .needMore 6 := by decide
theorem witness_HandshakeAndRestBound :
    outValid [0xFC, 0x80, 0x80, 0x80, 0x80] = false ∧
      (([0xFC, 0x80, 0x80, 0x80, 0x80] : List Byte) ++ [0x41]).length = 6 ∧ outValid [] = false := by decide
theorem witness_NeedLenFacts : decode [] = .needMore 1 ∧ needLen [0xC3] ≠ 0 ∧ needLen [0xFC, 0x80, 0x80, 0x80, 0x80] ≠ 0 := by decide
theorem witness_StatusWordLayout : ([0xFC, 0x80, 0x80, 0x80, 0x80, 0x41] : List Byte).length ≤ 6 := by decide
theorem witness_TokenLinesWhileValid :
    outValid (holding [0xFF, 0x41] []).hold = true ∧ decode (holding [0xFF, 0x41] []).hold = .malformed .badLead ∧
      outValid (holding [0x41] []).hold = true ∧ decode (holding [0x41] []).hold = .frame 1 0x41 := by decide
theorem witness_NeedMoreConsumesNothing : leadLen 0xF8 = some 5 ∧ ([0x80] : List Byte).length + 1 < 5 := by decide
theorem witness_InByteAppends :
    inReady (holding [] []).hold = true ∧
      inReady (holding [0xFC, 0x80, 0x80, 0x80, 0x80] []).hold = true ∧
      decode [0xFC, 0x80, 0x80, 0x80, 0x80] = .needMore 6 ∧
      isCont (([0xFC, 0x80, 0x80, 0x80, 0x80, 0x41] : List Byte).getD 5 0) = false := by decide
theorem witness_OutTokenDelivers : outValid (holding [0xFD, 0xBF, 0xBF, 0xBF, 0xBF, 0xBF] []).hold = true := by decide
theorem witness_MalformedIsOneOutToken :
    (holding [0xC3, 0x41] []).hold = [0xC3, 0x41] ∧ decode (holding [0xC3, 0x41] []).hold = .malformed .badCont := by
  decide
theorem witness_InEosDiscardsTheTail : inReady (holding [0xE0, 0x41] []).hold = true := by decide
theorem witness_ResetDominates : (holding [0x41] [⟨true, true, false, 0x42, true⟩]).pins.rst = true := by decide
theorem witness_DisabledOperationsWait :
    outValid (holding [0x41] []).hold = true ∧ outValid (holding [0xE0, 0x41] []).hold = false := by decide
theorem witness_FeedLoopTurnByTurn :
    (([] : List Byte) ++ [] = []) ∧ decode (([0xC3] : List Byte) ++ [0xA9]) = .frame 2 0xE9 ∧
      decode (([0xC3] : List Byte) ++ [0x41]) = .malformed .badCont ∧
      decode (([0xE0] : List Byte) ++ [0x41]) = .needMore 3 := by decide
theorem witness_FeedPostconditions :
    ([0xF8, 0x80] : List Byte) ≠ [] ∧ decode [0xF8, 0x80] = .needMore 5 ∧
      ([0xF8, 0x80] : List Byte).length + ([0x80, 0x80] : List Byte).length < 5 := by decide
theorem witness_FeedEmptyChunk : outValid [0xE2, 0x82] = false ∧ outValid [0x41] = true := by decide
theorem witness_ByteSerialRunEqualsFeed :
    inReady (holding [0xE0, 0x41] (serialInputs [0x80])).hold = true ∧
      (holding [0xE0, 0x41] (serialInputs [0x80])).offered = none ∧
      (holding [0xE0, 0x41] (serialInputs [0x80])).inputs = serialInputs [0x80] := by decide
theorem witness_ResynchronisesOneByteAtATime :
    (∀ c ∈ ([0x80, 0xBF] : List Byte), isCont c = true) ∧ decode [0xE2, 0x82, 0x41] = .malformed .badCont := by decide
theorem witness_DrainsEndWithinSixTokens :
    (holding [0xFC, 0x80, 0x80, 0x80, 0x80, 0x41] []).hold.length ≤ 6 ∧
      inReady (holding [0xFC, 0x80, 0x80, 0x80, 0x80] []).hold = true ∧
      (holding [0xFC, 0x80, 0x80, 0x80, 0x80] []).hold = [0xFC, 0x80, 0x80, 0x80, 0x80] := by decide
theorem witness_StepRunsTheHeadInstruction :
    (decodeInstr (holding [0x41] [takePins]).hold = .ok (.frame1 0x41) ∧
      commandChanged (holding [0x41] [takePins]) = false ∧ (holding [0x41] [takePins]).pins.rst = false ∧
      outValid (holding [0x41] [takePins]).hold = true ∧ (holding [0x41] [takePins]).pins.outReady = true) ∧
    (decodeInstr (holding [0xE0] []).hold = .ok (.needMore 0xE0 []) ∧ commandChanged (holding [0xE0] []) = false ∧
      (holding [0xE0] []).pins.rst = false ∧ outValid (holding [0xE0] []).hold = false ∧
      (holding [0xE0] []).pins.inValid = false) := by decide
theorem witness_StepRunsTheOfferedCommand :
    (commandChanged (holding [] [bytePins 0x41]) = false ∧ (holding [] [bytePins 0x41]).pins.rst = false ∧
      inReady (holding [] [bytePins 0x41]).hold = true ∧ (holding [] [bytePins 0x41]).pins.inValid = true ∧
      (holding [] [bytePins 0x41]).pins.inEos = false) ∧
    (commandChanged (holding [] [eosPins 0]) = false ∧ (holding [] [eosPins 0]).pins.rst = false ∧
      inReady (holding [] [eosPins 0]).hold = true ∧ (holding [] [eosPins 0]).pins.inValid = true ∧
      (holding [] [eosPins 0]).pins.inEos = true) := by decide
theorem witness_StepStopsOnlyOnAChangedCommand :
    commandChanged { holding [] [bytePins 0x42] with offered := some ⟨false, 0x41⟩ } = true ∧
      commandChanged (holding [] [bytePins 0x42]) = false := by decide
theorem witness_IdleBlockHolds :
    inReady (holding [0xE0, 0x41] [takePins]).hold = true ∧ (holding [0xE0, 0x41] [takePins]).pins.rst = false ∧
      (holding [0xE0, 0x41] [takePins]).pins.inValid = false := by decide
theorem witness_OfferedTokenIsStable :
    outValid (holding [0x41] [takePins]).hold = true ∧ (holding [0x41] [takePins]).pins.rst = false ∧
      (holding [0x41] [takePins]).pins.outReady = true ∧
      step (holding [0x41] [takePins]) = .next (after (step (holding [0x41] [takePins]))) ∧
      (holding [0x41] []).pins.outReady = false ∧ step (holding [0x41] []) = .next (after (step (holding [0x41] []))) :=
  ⟨by decide, by decide, by decide, rfl, by decide, rfl⟩
theorem witness_HoldChangesOnlyByItsOperations :
    step (holding [] [bytePins 0x41]) = .next (after (step (holding [] [bytePins 0x41]))) := rfl
theorem witness_SessionBoundaries :
    step { holding [] [eosPins 0] with accepted := [0x41] } =
        .next (after (step { holding [] [eosPins 0] with accepted := [0x41] })) ∧
      ¬ ∃ b, (after (step { holding [] [eosPins 0] with accepted := [0x41] })).accepted = [0x41] ++ b :=
  ⟨rfl, fun ⟨_, h⟩ => by cases h⟩
theorem witness_OnlyTheHoldBufferMatters :
    SameBlock (holding [0x41] [takePins]) { holding [0x41] [takePins] with pos := 7, tokens := [.frameTok 1 0] } :=
  ⟨rfl, rfl, rfl⟩
theorem witness_StepKeepsTheHoldBound :
    (holding [0xFC, 0x80, 0x80, 0x80, 0x80] [bytePins 0x41]).hold.length ≤ 6 ∧
      step (holding [0xFC, 0x80, 0x80, 0x80, 0x80] [bytePins 0x41]) =
        .next (after (step (holding [0xFC, 0x80, 0x80, 0x80, 0x80] [bytePins 0x41]))) :=
  ⟨by decide, rfl⟩

/-- A state in the middle of a session meets the session invariant: the bytes `41 E0` accepted, one token out. -/
theorem witness_SessionInv :
    SessionInv { State.reset with
      hold := [0xE0], accepted := [0x41, 0xE0], pos := 1, tokens := [.frameTok 1 0x41], inputs := [bytePins 0x80] } where
  bound := by decide
  within := by decide
  held := by decide
  counted := by decide
  legal := by decide
  stream := by
    intro ts R h
    exact .next _ (.frameTok 1 0x41) _ _ (by decide) h

theorem witness_StepKeepsTheSessionInvariant :
    step { State.reset with
      hold := [0xE0], accepted := [0x41, 0xE0], pos := 1, tokens := [.frameTok 1 0x41], inputs := [bytePins 0x80] } =
    .next (after (step { State.reset with
      hold := [0xE0], accepted := [0x41, 0xE0], pos := 1, tokens := [.frameTok 1 0x41], inputs := [bytePins 0x80] })) :=
  rfl
theorem witness_DrainedOutputIsTheStreamsMeaning : inReady [0xE0] = true := by decide
theorem witness_MotionsRoundTrip :
    (-4095 : Int) ≤ -4095 ∧ (-4095 : Int) ≤ 4095 ∧ (-4095 : Int) ≤ 4095 ∧ (4095 : Int) ≤ 4095 := by decide
theorem witness_TokenClassesAndIndexRanges :
    37 ≤ (37 : Value).toNat ∧ (8 ≤ (8 : Value).toNat ∧ (8 : Value).toNat ≤ 34) ∧ (34 : Value).toNat ≤ 34 ∧
      interpret (.frameTok 6 37) = some .unknownIndex := by decide

end Sys2Proof.Tests
end

/-! PROOFS. The output lines of the block as functions of H (10_state.md R27 to R33): the handshake, `need_len`,
the STATUS word and the token word. -/

namespace Sys2Proof.OutputLines

open Sys2Proof Sys2Proof.Machine Sys2Proof.Laws

/-! ### The handshake and a buffer at rest -/

/-- R28 in the terms of `decode`; the empty buffer is covered because `decode [] = NeedMore(1)` (R96). -/
theorem resolvable_iff (H : List Byte) : resolvable H = true ↔ ∀ i, decode H ≠ .needMore i := by
  constructor
  · intro h i hd
    obtain ⟨b0, rest, -, ⟨l, v, hd', -⟩ | ⟨c, hd', -⟩⟩ := offered_cases h
    · simp [hd] at hd'
    · simp [hd] at hd'
  · intro h
    by_contra hr
    rcases rest_cases (by simpa using hr) with rfl | ⟨b0, rest, i, -, -, -, -, -, hd⟩
    · exact h 1 rfl
    · exact h i hd

theorem resolvable_of_needMore {H : List Byte} {i : Nat} (hd : decode H = .needMore i) : resolvable H = false := by
  by_contra hr
  exact (resolvable_iff H).1 (by simpa using hr) i hd

/-- A five-byte buffer at rest waits for the sixth byte of a six-byte frame (R21). -/
theorem full_rest {H : List Byte} (h : resolvable H = false) (h5 : H.length = 5) :
    decode H = .needMore 6 ∧ ∀ b, resolvable (H ++ [b]) = true := by
  rcases rest_cases h with rfl | ⟨b0, rest, i, rfl, hl, -, h6, hlt, hd⟩
  · simp at h5
  · obtain rfl : i = 6 := by omega
    refine ⟨hd, fun b => ?_⟩
    rw [List.cons_append, resolvable_cons_iff, need_of_leadLen hl]
    simp only [List.length_cons, List.length_append, List.length_nil] at h5 ⊢
    omega

/-- Settles O21: both halves of the handshake from `resolvable_iff`, the rest bound from `rest_cases`, the sixth
byte from `full_rest`. -/
theorem handshakeAndRestBound : Obligations.HandshakeAndRestBound := by
  intro H
  simp only [outValid_eq, inReady_eq]
  refine ⟨⟨fun h => ⟨?_, (resolvable_iff H).1 h⟩, fun h => (resolvable_iff H).2 h.2⟩, trivial,
    fun h => ⟨rest_length h, ?_⟩, fun b h hlen => ?_⟩
  · rintro rfl
    simp at h
  · rcases rest_cases h with hn | ⟨b0, rest, i, -, -, -, h6, hlt, hd⟩
    · exact .inl hn
    · exact .inr ⟨i, hd, hlt, h6⟩
  · have h5 : H.length = 5 := by simpa using hlen
    obtain ⟨hd, hr⟩ := full_rest h h5
    exact ⟨h5, hd, hr b⟩

/-! ### `need_len` -/

theorem needLenNat_of_needMore {b0 : Byte} {rest : List Byte} {i : Nat} (hd : decode (b0 :: rest) = .needMore i) :
    needLenNat (b0 :: rest) = i := by simp [needLenNat, hd]

theorem needLenNat_of_resolvable {H : List Byte} (h : resolvable H = true) : needLenNat H = 0 := by
  obtain ⟨b0, rest, rfl, ⟨l, v, hd, -⟩ | ⟨c, hd, -⟩⟩ := offered_cases h
  · simp [needLenNat, hd]
  · simp [needLenNat, hd]

/-- R31: `need_len` is 0, or H is at rest and `need_len` is the length its frame declares. -/
theorem needLenNat_cases (H : List Byte) :
    needLenNat H = 0 ∨
      (resolvable H = false ∧ 2 ≤ needLenNat H ∧ needLenNat H ≤ 6 ∧ H.length < needLenNat H) := by
  cases hr : resolvable H with
  | true => exact .inl (needLenNat_of_resolvable hr)
  | false =>
    rcases rest_cases hr with rfl | ⟨b0, rest, i, rfl, -, h2, h6, hlt, hd⟩
    · exact .inl rfl
    · rw [needLenNat_of_needMore hd]
      exact .inr ⟨rfl, h2, h6, hlt⟩

/-- `need_len` fits its three lines. -/
theorem needLen_toNat (H : List Byte) : (needLen H).toNat = needLenNat H := by
  have h := needLenNat_cases H
  rw [needLen, BitVec.toNat_ofNat]
  omega

/-- `hold_count` fits its three lines while H keeps its capacity. -/
theorem holdCount_toNat {H : List Byte} (h : H.length ≤ 6) : (holdCount H).toNat = H.length := by
  rw [holdCount, BitVec.toNat_ofNat]
  omega

/-- Settles O22: every clause is a reading of `needLenNat_cases`. -/
theorem needLenFacts : Obligations.NeedLenFacts := by
  refine ⟨rfl, fun H => ⟨fun hd => ?_, fun h1 => ?_, fun h0 => ?_⟩⟩
  · rcases rest_cases (resolvable_of_needMore hd) with hn | ⟨b0, rest, i, -, -, h2, -, -, hd'⟩
    · exact hn
    · obtain rfl : 1 = i := by simpa [hd] using hd'
      omega
  · have hn : needLenNat H = 1 := by rw [← needLen_toNat, h1]; rfl
    have hc := needLenNat_cases H
    omega
  · have hn : needLenNat H ≠ 0 := fun h => h0 (by rw [needLen, h]; rfl)
    obtain ⟨hr, h2, h6, hlt⟩ := (needLenNat_cases H).resolve_left hn
    rw [needLen_toNat, holdCount_toNat (by omega)]
    exact ⟨h2, h6, hlt, hr, by simp [hr]⟩

/-! ### Packed words -/

/-- The four fields of a word packed from four, the last at the low end: STATUS (R30) and TOKEN (R70). -/
theorem fields_of_append {m n p q : Nat} (a : BitVec m) (b : BitVec n) (c : BitVec p) (d : BitVec q) :
    (a ++ b ++ c ++ d).extractLsb' 0 q = d ∧ (a ++ b ++ c ++ d).extractLsb' q p = c ∧
      (a ++ b ++ c ++ d).extractLsb' (q + p) n = b ∧ (a ++ b ++ c ++ d).extractLsb' (q + p + n) m = a := by
  refine ⟨BitVec.extractLsb'_append_eq_right, ?_, ?_, ?_⟩
  · simp [BitVec.extractLsb'_append_eq_of_le, BitVec.extractLsb'_append_eq_right]
  · simp [BitVec.extractLsb'_append_eq_of_le, BitVec.extractLsb'_append_eq_right]
  · simp [BitVec.extractLsb'_append_eq_of_le, Nat.add_assoc]

/-- A one-bit field that holds a flag is that flag's line. -/
theorem getLsbD_of_field {w k : Nat} {x : BitVec w} {f : Bool} (h : x.extractLsb' k 1 = BitVec.ofBool f) :
    x.getLsbD k = f := by
  simpa using congrArg (fun y => y.getLsbD 0) h

/-- Settles O23: the packing of `statusWord` read back, and the legal values of the two counts. -/
theorem statusWordLayout : Obligations.StatusWordLayout := by
  intro H hlen
  obtain ⟨hcount, hneed, hvalid, hready⟩ :=
    fields_of_append (BitVec.ofBool (inReady H)) (BitVec.ofBool (outValid H)) (needLen H) (holdCount H)
  refine ⟨?_, ?_, ?_, getLsbD_of_field hvalid, getLsbD_of_field hready⟩
  · exact (congrArg BitVec.toNat hcount).trans (holdCount_toNat hlen)
  · exact (congrArg BitVec.toNat hneed).trans (needLen_toNat H)
  · exact (needLenNat_cases H).imp_right fun ⟨_, h2, h6, _⟩ => ⟨h2, h6⟩

/-! ### The token lines -/

theorem tokenLines_of_offered {s : State} {t : Token} (h : offeredToken s.hold = some t) :
    tokenLines s = packToken t := by simp [tokenLines, h]

/-- The fields of a frame's token word (R29). -/
theorem packToken_frameTok_fields {l : Nat} (v : Value) (h : l ≤ 6) :
    (packToken (.frameTok l v)).extractLsb' 35 1 = 0 ∧ (packToken (.frameTok l v)).extractLsb' 34 1 = 0 ∧
      ((packToken (.frameTok l v)).extractLsb' 31 3).toNat = l ∧
      (packToken (.frameTok l v)).extractLsb' 0 31 = v := by
  obtain ⟨hvalue, hlen, hcause, hkind⟩ := fields_of_append 0#1 0#1 (BitVec.ofNat 3 l) v
  refine ⟨hkind, hcause, (congrArg BitVec.toNat hlen).trans ?_, hvalue⟩
  rw [BitVec.toNat_ofNat]
  omega

/-- The fields of a malformed byte's token word (R29). -/
theorem packToken_malTok_fields (c : Cause) (b : Byte) :
    (packToken (.malTok c b)).extractLsb' 35 1 = 1 ∧ (packToken (.malTok c b)).extractLsb' 34 1 = causeCode c ∧
      ((packToken (.malTok c b)).extractLsb' 31 3).toNat = 1 ∧
      (packToken (.malTok c b)).extractLsb' 0 31 = b.setWidth 31 := by
  obtain ⟨hvalue, hlen, hcause, hkind⟩ := fields_of_append 1#1 (causeCode c) 1#3 (b.setWidth 31)
  exact ⟨hkind, hcause, congrArg BitVec.toNat hlen, hvalue⟩

/-- Settles O24: the offered token is the one of `decode`'s result (`offered_cases`), and its word is on the lines. -/
theorem tokenLinesWhileValid : Obligations.TokenLinesWhileValid := by
  intro s h
  obtain ⟨b0, rest, hH, ⟨l', v', hd, -, h6, -, ho⟩ | ⟨c', hd, ho⟩⟩ := offered_cases h
  · refine ⟨b0, rest, hH, fun l v hf => ?_, fun c hm => by simp [hd] at hm⟩
    obtain ⟨rfl, rfl⟩ : l' = l ∧ v' = v := by simpa [hd] using hf
    rw [tokenLines_of_offered ho]
    exact packToken_frameTok_fields v' h6
  · refine ⟨b0, rest, hH, fun l v hf => by simp [hd] at hf, fun c hm => ?_⟩
    obtain rfl : c' = c := by simpa [hd] using hm
    rw [tokenLines_of_offered ho]
    cases c' with
    | badLead => exact packToken_malTok_fields .badLead b0
    | badCont => exact packToken_malTok_fields .badCont b0

/-! ### After reset -/

/-- Settles O25: R33's table, evaluated at the empty buffer. -/
theorem resetValues : Obligations.ResetValues := ⟨rfl, rfl, rfl, rfl, rfl, rfl⟩

end Sys2Proof.OutputLines

/-! PROOFS. What the operations and a step do with H: the port operations that wait, the bound of six bytes, and the
instruction at the head of H, what it stands for and when a step runs it. -/

namespace Sys2Proof.StateSteps

open Sys2Proof Sys2Proof.Machine Sys2Proof.Laws

/-! ### Waiting, and the bound of H -/

/-- Settles O35: the waiting halves of the three port operations (log 8). -/
theorem disabledOperationsWait : Obligations.DisabledOperationsWait :=
  fun _ => ⟨fun h => ⟨fun d => execInByte_wait d h, fun x => execInEos_wait x h⟩, execOutToken_rest⟩

/-- Settles O52: only an accepted byte makes H longer, and then H was at rest, so it held at most five. -/
theorem stepKeepsTheHoldBound : Obligations.StepKeepsTheHoldBound := by
  intro s t hlen h
  rcases (step_cases h).2 with ⟨-, rfl⟩ | ⟨-, -, hvalid⟩ | ⟨-, hr, -, hcmd⟩ | ⟨-, -, -, hidle⟩
  · simp
  · rcases hvalid with ⟨-, k, -, rfl⟩ | ⟨-, rfl⟩
    · simp; omega
    · simpa using hlen
  · have h5 := rest_length hr
    rcases hcmd with ⟨-, rfl⟩ | ⟨-, rfl⟩
    · simp; omega
    · simp
  · rcases hidle with ⟨-, rfl⟩ | ⟨-, rfl⟩
    · simpa using hlen
    · simpa using hlen

/-! ### What the decoded instruction stands for -/

/-- The instruction `i` stands for the decode result `r` at a frame start whose lead byte is `b0`: it names that
result, and its meaning is to run it (R22, R97, R145; log 1). -/
structure StandsFor (b0 : Byte) (r : DecodeResult) (i : Instr) : Prop where
  result_eq : i.result = some r
  exec_eq : ∀ s : State, exec i s = .next (runResult r b0 s)

/-- The validator's BAD_CONT instruction stands for that result, and there is one exactly when some byte fails. -/
theorem badContOf_cases (b0 : Byte) (cs : List Byte) : ∀ good,
    (badContOf b0 good cs = none ∧ ∀ c ∈ cs, isCont c = true) ∨
    (∃ m, badContOf b0 good cs = some m ∧ StandsFor b0 (.malformed .badCont) m ∧
      ∃ c ∈ cs, isCont c = false) := by
  induction cs with
  | nil => exact fun good => .inl ⟨rfl, by simp⟩
  | cons c cs ih =>
    intro good
    by_cases hc : isCont c = true
    · rw [badContOf, if_pos hc]
      rcases ih (good ++ [contBits c]) with ⟨hn, hall⟩ | ⟨m, hm, hs, d, hd, hbad⟩
      · exact .inl ⟨hn, by simpa [hc] using hall⟩
      · exact .inr ⟨m, hm, hs, d, List.mem_cons_of_mem c hd, hbad⟩
    · right
      have hbad : ∃ d ∈ c :: cs, isCont d = false := ⟨c, List.mem_cons_self, by simpa using hc⟩
      rw [badContOf, if_neg hc]
      split_ifs <;> exact ⟨_, rfl, ⟨rfl, fun _ => rfl⟩, hbad⟩

/-- A multi-byte format's instruction stands for what `decode` answers, once its frame instruction stands for the
assembled value (R66) whenever the right number of continuation bytes is there. -/
theorem decodeMulti_standsFor {b0 : Byte} {n : Nat} (rest : List Byte) {mk : List (BitVec 6) → Instr}
    (hl : leadLen b0 = some n) (h2 : 2 ≤ n)
    (hmk : ∀ cs : List Byte, cs.length = n - 1 →
      StandsFor b0 (.frame n (cs.foldl shiftIn (leadBits n b0))) (mk (cs.map contBits))) :
    StandsFor b0 (decode (b0 :: rest)) (decodeMulti n b0 rest mk) := by
  rw [decodeMulti]
  rcases decode_cases b0 rest with ⟨hl', -⟩ | ⟨hl', -⟩ | ⟨j, hl', -, -, hcase⟩
  · simp [hl] at hl'; omega
  · simp [hl] at hl'
  · obtain rfl : n = j := by simpa [hl] using hl'
    rcases hcase with ⟨hs, hd⟩ | ⟨hs, ⟨c, hm, hb⟩, hd⟩ | ⟨hs, hall, hd⟩
    · rw [if_pos (by omega), hd, ← need_of_leadLen hl]
      exact ⟨rfl, fun _ => rfl⟩
    · rw [if_neg (by omega), hd]
      rcases badContOf_cases b0 (rest.take (n - 1)) [] with ⟨-, hgood⟩ | ⟨m, hbc, hm', -⟩
      · simp [hgood c hm] at hb
      · rwa [hbc]
    · rw [if_neg (by omega), hd]
      rcases badContOf_cases b0 (rest.take (n - 1)) [] with ⟨hbc, -⟩ | ⟨m, -, -, c, hm, hb⟩
      · rw [hbc]
        exact hmk _ (by rw [List.length_take]; omega)
      · simp [hall c hm] at hb

theorem decode_of_leadLen_one {b0 : Byte} (hl : leadLen b0 = some 1) (rest : List Byte) :
    decode (b0 :: rest) = .frame 1 ((b0.extractLsb' 0 7).setWidth 31) := by
  rw [decode, if_pos ((leadLen_one_iff b0).1 hl)]

theorem decode_of_leadLen_none {b0 : Byte} (hl : leadLen b0 = none) (rest : List Byte) :
    decode (b0 :: rest) = .malformed .badLead := by
  rcases decode_cases b0 rest with ⟨hl', -⟩ | ⟨-, hd⟩ | ⟨i, hl', -⟩
  · simp [hl] at hl'
  · exact hd
  · simp [hl] at hl'

/-- A BAD_LEAD row gives its lead byte back (R93). -/
theorem leadByte_of_badLead_class (b : Byte) :
    (leadClass b = .stray → 0b10#2 ++ b.extractLsb' 0 6 = b) ∧ (leadClass b = .leadFE → 0xFE = b) ∧
      (leadClass b = .leadFF → 0xFF = b) := by
  revert b; exact forall_byte_of_fin (by decide +kernel)

/-- A BAD_LEAD instruction whose recorded byte is the lead byte stands for BAD_LEAD. -/
theorem standsFor_badLead {b0 b : Byte} {i : Instr} (hb : b = b0) (hres : i.result = some (.malformed .badLead))
    (hexec : ∀ s, exec i s = .next (runResult (.malformed .badLead) b s)) :
    StandsFor b0 (.malformed .badLead) i := ⟨hres, hb ▸ hexec⟩

/-- The instruction decoder reads, at the head of H, an instruction that stands for what `decode` answers there.
For the formats F2 to F6 the value is R66's fold, which appends six bits a turn. -/
theorem decodeInstr_standsFor {b0 : Byte} {rest : List Byte} {i : Instr} (h : decodeInstr (b0 :: rest) = .ok i) :
    StandsFor b0 (decode (b0 :: rest)) i := by
  have hl := leadLen_eq_class b0
  obtain ⟨hstray, hFE, hFF⟩ := leadByte_of_badLead_class b0
  cases hk : leadClass b0 <;> simp only [decodeInstr, hk, Except.ok.injEq] at h hl <;> subst h
  case f1 => exact decode_of_leadLen_one hl rest ▸ ⟨rfl, fun _ => rfl⟩
  case stray => exact decode_of_leadLen_none hl rest ▸ standsFor_badLead (hstray hk) rfl fun _ => rfl
  case leadFE => exact decode_of_leadLen_none hl rest ▸ standsFor_badLead (hFE hk) rfl fun _ => rfl
  case leadFF => exact decode_of_leadLen_none hl rest ▸ standsFor_badLead (hFF hk) rfl fun _ => rfl
  case' f2 => refine decodeMulti_standsFor rest hl (by omega) fun | [_], _ => ?_
  case' f3 => refine decodeMulti_standsFor rest hl (by omega) fun | [_, _], _ => ?_
  case' f4 => refine decodeMulti_standsFor rest hl (by omega) fun | [_, _, _], _ => ?_
  case' f5 => refine decodeMulti_standsFor rest hl (by omega) fun | [_, _, _, _], _ => ?_
  case' f6 => refine decodeMulti_standsFor rest hl (by omega) fun | [_, _, _, _, _], _ => ?_
  all_goals
    simp only [List.foldl, leadBits, shiftIn_append, BitVec.setWidth_eq]
    exact ⟨rfl, fun _ => rfl⟩

/-! ### When a step runs it -/

theorem step_of_event {s : State} {i : Instr} (hc : commandChanged s = false) (he : event s.pins s.hold = some i) :
    step s = exec i (sample s) := by simp [step, hc, he]

theorem event_outToken {p : Pins} {H : List Byte} (hrst : p.rst = false) (hr : resolvable H = true)
    (hq : p.outReady = true) : event p H = some .outToken := by simp [event, hrst, hr, hq]

theorem event_head {p : Pins} {H : List Byte} {i : Instr} (hrst : p.rst = false) (hr : resolvable H = false)
    (hv : p.inValid = false) (hi : decodeInstr H = .ok i) : event p H = some i := by simp [event, hrst, hr, hv, hi]

/-- OUT_TOKEN on a resolvable buffer is the instruction decoded at its head (log 1). -/
theorem execOutToken_eq_exec_head {s : State} {i : Instr} (hr : resolvable s.hold = true)
    (hi : decodeInstr s.hold = .ok i) : exec .outToken s = exec i s := by
  obtain ⟨b0, rest, hH, -⟩ := offered_cases hr
  rw [hH] at hi
  rw [(decodeInstr_standsFor hi).exec_eq, exec, execOutToken, outValid_eq, if_pos hr, hH]
  rfl

/-- Settles O44: the event is OUT_TOKEN while H is resolvable and the head instruction while it is not. -/
theorem stepRunsTheHeadInstruction : Obligations.StepRunsTheHeadInstruction := by
  intro s i hi hc hrst
  refine ⟨fun hr hq => ?_, fun hr hv => step_of_event hc (event_head hrst hr hv hi)⟩
  have hstep := step_of_event hc (event_outToken hrst hr hq)
  exact ⟨hstep.trans (execOutToken_eq_exec_head hr hi), hstep⟩

end Sys2Proof.StateSteps

/-! PROOFS. The hold buffer as the block's one piece of state (20_memory.md R41, R47, R49, R53): that only H and the
environment decide what an operation does, that an offered token is stable, and what changes H. -/

namespace Sys2Proof.HoldBuffer

open Sys2Proof Sys2Proof.Machine Sys2Proof.Safety Sys2Proof.Laws

/-! ### Only H and the environment decide what an operation does -/

/-- The operation takes two states that are the same to the block to two such states again, and delivers the same
tokens from both, whatever the records hold (R53). -/
def RespectsBlock (f : State → State) : Prop :=
  ∀ s₁ s₂ : State, SameBlock s₁ s₂ →
    SameBlock (f s₁) (f s₂) ∧ ∃ d, delivered (f s₁) = delivered s₁ ++ d ∧ delivered (f s₂) = delivered s₂ ++ d

theorem respectsBlock_id : RespectsBlock fun s => s := fun _ _ h => ⟨h, [], by simp, by simp⟩

theorem RespectsBlock.comp {f g : State → State} (hf : RespectsBlock f) (hg : RespectsBlock g) :
    RespectsBlock fun s => f (g s) := by
  intro s₁ s₂ h
  obtain ⟨hmid, d, hd₁, hd₂⟩ := hg s₁ s₂ h
  obtain ⟨hend, e, he₁, he₂⟩ := hf _ _ hmid
  exact ⟨hend, d ++ e, by rw [he₁, hd₁, List.append_assoc], by rw [he₂, hd₂, List.append_assoc]⟩

/-- An operation may read H as it likes. -/
theorem respectsBlock_of_hold {f : List Byte → State → State} (h : ∀ H, RespectsBlock (f H)) :
    RespectsBlock fun s => f s.hold s := by
  intro s₁ s₂ hs
  simpa only [hs.1] using h s₂.hold s₁ s₂ hs

/-- An operation that delivers nothing. -/
theorem respectsBlock_of_quiet {f : State → State} (hblock : ∀ s₁ s₂, SameBlock s₁ s₂ → SameBlock (f s₁) (f s₂))
    (hquiet : ∀ s, delivered (f s) = delivered s) : RespectsBlock f :=
  fun s₁ s₂ h => ⟨hblock s₁ s₂ h, [], by simp [hquiet], by simp [hquiet]⟩

/-! ### The shared operations -/

theorem respectsBlock_noteDecoded (r : DecodeResult) : RespectsBlock (noteDecoded r) :=
  respectsBlock_of_quiet (fun _ _ h => h) fun _ => rfl

theorem respectsBlock_deliver (k : Token) : RespectsBlock (deliver k) :=
  fun _ _ ⟨hH, hin, hoff⟩ =>
    ⟨⟨by simp [hH], hin, hoff⟩, [k], by simp [delivered], by simp [delivered]⟩

theorem respectsBlock_acceptByte (b : Byte) : RespectsBlock (acceptByte b) :=
  respectsBlock_of_quiet (fun _ _ ⟨hH, hin, _⟩ => ⟨by simp [hH], hin, rfl⟩) fun _ => rfl

/-- A session boundary delivers nothing: the session's tokens count as the earlier ones from then on (log 4). -/
theorem respectsBlock_endSession : RespectsBlock endSession :=
  respectsBlock_of_quiet (fun _ _ ⟨_, hin, hoff⟩ => ⟨rfl, hin, hoff⟩) fun _ => by simp [delivered]

theorem respectsBlock_keepOffered (c : Command) : RespectsBlock (keepOffered c) :=
  respectsBlock_of_quiet (fun _ _ ⟨hH, hin, _⟩ => ⟨hH, hin, rfl⟩) fun _ => rfl

theorem respectsBlock_takeOffered : RespectsBlock takeOffered :=
  respectsBlock_of_quiet (fun _ _ ⟨hH, hin, _⟩ => ⟨hH, hin, rfl⟩) fun _ => rfl

theorem pins_eq_of_sameBlock {s₁ s₂ : State} (h : SameBlock s₁ s₂) : s₁.pins = s₂.pins := by
  obtain ⟨-, hin, -⟩ := h
  rw [State.pins, State.pins, hin]

theorem respectsBlock_sample : RespectsBlock sample :=
  respectsBlock_of_quiet (fun _ _ h => by
    have hpins := pins_eq_of_sameBlock h
    obtain ⟨hH, hin, hoff⟩ := h
    exact ⟨hH, by simp [hin], by simp [hpins, hoff]⟩) fun _ => rfl

theorem respectsBlock_runFeed (C : List Byte) : RespectsBlock (runFeed C) :=
  fun s₁ _ ⟨hH, hin, hoff⟩ =>
    ⟨⟨by simp [hH], hin, hoff⟩, (feed s₁.hold C).toks, by simp [delivered], by simp [delivered, hH]⟩

theorem respectsBlock_runResult (r : DecodeResult) (b0 : Byte) : RespectsBlock (runResult r b0) := by
  cases r with
  | frame l v => exact (respectsBlock_deliver _).comp (respectsBlock_noteDecoded _)
  | malformed c => exact (respectsBlock_deliver _).comp (respectsBlock_noteDecoded _)
  | needMore i => exact respectsBlock_noteDecoded _

/-! ### Every instruction -/

/-- A port operation that runs `f` on a resolvable buffer and `g` on one at rest. -/
theorem respectsBlock_ite {f g : State → State} (hf : RespectsBlock f) (hg : RespectsBlock g) :
    RespectsBlock fun s => if resolvable s.hold then f s else g s := by
  refine respectsBlock_of_hold (f := fun H s => if resolvable H then f s else g s) fun H => ?_
  cases resolvable H with
  | true => exact hf
  | false => exact hg

/-- OUT_TOKEN runs the decode of H, or waits. -/
theorem execOutToken_respects : ∃ f, RespectsBlock f ∧ ∀ s, exec .outToken s = .next (f s) := by
  refine ⟨_, respectsBlock_ite (respectsBlock_of_hold fun H => respectsBlock_runResult (decode H) (H.headD 0))
    respectsBlock_id, fun s => ?_⟩
  exact (apply_ite Host.Outcome.next (resolvable s.hold = true) _ _).symm

theorem execInByte_respects (d : Byte) : ∃ f, RespectsBlock f ∧ ∀ s, exec (.inByte d) s = .next (f s) := by
  refine ⟨_, respectsBlock_ite (respectsBlock_keepOffered ⟨false, d⟩) (respectsBlock_acceptByte d), fun s => ?_⟩
  cases hr : resolvable s.hold with
  | true => rw [execInByte_wait d hr, if_pos rfl]
  | false => rw [execInByte_ready d hr, if_neg Bool.false_ne_true]

theorem execInEos_respects (x : Byte) : ∃ f, RespectsBlock f ∧ ∀ s, exec (.inEos x) s = .next (f s) := by
  refine ⟨_, respectsBlock_ite (respectsBlock_keepOffered ⟨true, x⟩)
    (respectsBlock_takeOffered.comp respectsBlock_endSession), fun s => ?_⟩
  cases hr : resolvable s.hold with
  | true => rw [execInEos_wait x hr, if_pos rfl]
  | false => rw [execInEos_ready x hr, if_neg Bool.false_ne_true]

/-- Every instruction answers a next state, and which one depends on H and the environment alone. -/
theorem exec_respects (i : Instr) : ∃ f, RespectsBlock f ∧ ∀ s, exec i s = .next (f s) := by
  cases i with
  | decode B => exact ⟨_, respectsBlock_noteDecoded _, fun _ => rfl⟩
  | inByte d => exact execInByte_respects d
  | inEos x => exact execInEos_respects x
  | outToken => exact execOutToken_respects
  | reset => exact ⟨_, respectsBlock_endSession, fun _ => rfl⟩
  | feed C => exact ⟨_, respectsBlock_runFeed C, fun _ => rfl⟩
  | _ => exact ⟨_, respectsBlock_runResult _ _, fun _ => rfl⟩

/-! ### The step -/

theorem commandChanged_eq_of_sameBlock {s₁ s₂ : State} (h : SameBlock s₁ s₂) :
    commandChanged s₁ = commandChanged s₂ := by
  have hpins := pins_eq_of_sameBlock h
  obtain ⟨-, -, hoff⟩ := h
  simp only [commandChanged, hoff, hpins]

/-- The sample and H fix the operation of a step that meets no changed command. -/
theorem step_respects (p : Pins) (H : List Byte) : ∃ f, RespectsBlock f ∧
    ∀ s, s.pins = p → s.hold = H → commandChanged s = false → step s = .next (f s) := by
  cases he : event p H with
  | none => exact ⟨_, respectsBlock_sample, fun s hp hH hc => by simp [step, hc, hp, hH, he]⟩
  | some i =>
    obtain ⟨f, hf, hexec⟩ := exec_respects i
    exact ⟨_, hf.comp respectsBlock_sample, fun s hp hH hc => by simp [step, hc, hp, hH, he, hexec]⟩

/-- Settles O51: the two states read the same sample and run the same event (`step_respects`), so an operation
that respects what they have in common takes both on. -/
theorem onlyTheHoldBufferMatters : Obligations.OnlyTheHoldBufferMatters := by
  intro s₁ s₂ h
  have hcc := commandChanged_eq_of_sameBlock h
  cases hc : commandChanged s₂ with
  | true => exact .inl ⟨by simp [step, hcc, hc], by simp [step, hc]⟩
  | false =>
    obtain ⟨f, hf, hstep⟩ := step_respects s₂.pins s₂.hold
    obtain ⟨hblock, d, hd₁, hd₂⟩ := hf s₁ s₂ h
    have h₁ : step s₁ = .next (f s₁) := hstep s₁ (pins_eq_of_sameBlock h) h.1 (hcc.trans hc)
    exact .inr ⟨f s₁, f s₂, d, h₁, hstep s₂ rfl rfl hc, hblock, hd₁, hd₂⟩

/-! ### An offered token, and the changes of H -/

/-- While a token is on offer and there is no reset, a step delivers that token or only reads the sample. -/
theorem step_of_resolvable {s t : State} (hr : resolvable s.hold = true) (hrst : s.pins.rst = false)
    (h : step s = .next t) :
    (s.pins.outReady = true ∧ ∃ k, offeredToken s.hold = some k ∧
      t = deliver k (noteDecoded (decode s.hold) (sample s))) ∨ (s.pins.outReady = false ∧ t = sample s) := by
  rcases (step_cases h).2 with ⟨hrst', -⟩ | ⟨-, -, hvalid⟩ | ⟨-, hr', -⟩ | ⟨-, hr', -⟩
  · simp [hrst] at hrst'
  · exact hvalid
  · simp [hr] at hr'
  · simp [hr] at hr'

/-- Settles O48: of the two things a step can do while a token is on offer, delivering it is the one with the
consumer ready, and reading the sample touches neither H nor the records. -/
theorem offeredTokenIsStable : Obligations.OfferedTokenIsStable := by
  intro s t hv hrst h
  rcases step_of_resolvable hv hrst h with ⟨hq, k, hk, rfl⟩ | ⟨hq, rfl⟩
  · exact ⟨rfl, rfl, fun hn => by simp [hq] at hn, fun _ => ⟨k, hk, rfl⟩⟩
  · exact ⟨rfl, rfl, fun _ => ⟨rfl, rfl, rfl⟩, fun hy => by simp [hq] at hy⟩

/-- Settles O49: R41's primitives are read off the cases of a step; a step that is none of them only reads the
sample or notes a result. -/
theorem holdChangesOnlyByItsOperations : Obligations.HoldChangesOnlyByItsOperations := by
  intro s t h
  rcases (step_cases h).2 with ⟨hrst, rfl⟩ | ⟨-, -, hvalid⟩ | ⟨-, hr, hv, hcmd⟩ | ⟨-, -, -, hidle⟩
  · exact .inr (.inr (.inr ⟨.inl hrst, rfl⟩))
  · rcases hvalid with ⟨hq, k, hk, rfl⟩ | ⟨-, rfl⟩
    · exact .inr (.inr (.inl ⟨k, hk, hq, rfl⟩))
    · exact .inl rfl
  · have hready : inReady s.hold = true := by simp [hr]
    rcases hcmd with ⟨he, rfl⟩ | ⟨he, rfl⟩
    · exact .inr (.inl ⟨hready, hv, he, rfl⟩)
    · exact .inr (.inr (.inr ⟨.inr ⟨hready, hv, he⟩, rfl⟩))
  · rcases hidle with ⟨-, rfl⟩ | ⟨-, rfl⟩
    · exact .inl rfl
    · exact .inl rfl

end Sys2Proof.HoldBuffer

/-! PROOFS. The wire format (30_encoding.md R61 to R74): the classes of a lead byte, the value of a frame as a number,
the encoder of the pseudo-frames, and the packed command and token words. -/

namespace Sys2Proof.Encoding

open Sys2Proof Sys2Proof.Machine Sys2Proof.Laws

/-! ### Lead and continuation bytes -/

/-- The top `i` bits as `lead_len` tests them, bit by bit (R62). -/
theorem topOnes_iff {i : Nat} (hi : i ≤ 8) (b : Byte) :
    topOnes i b = true ↔ ∀ k, 8 - i ≤ k → k ≤ 7 → b.getLsbD k = true := by
  rw [topOnes, beq_iff_eq]
  constructor
  · intro h k hlo hhi
    have hbit := congrArg (fun x => x.getLsbD (k - (8 - i))) h
    simpa [show k - (8 - i) < i by omega, show 8 - i + (k - (8 - i)) = k by omega] using hbit
  · intro h
    refine BitVec.eq_of_getLsbD_eq fun k hk => ?_
    simp [hk, h (8 - i + k) (by omega) (by omega)]

/-- A lead byte declares `i` bytes, `i >= 2`, by `i` ones and a zero after them (R62). -/
theorem leadLen_multi_iff {i : Nat} (h2 : 2 ≤ i) (h6 : i ≤ 6) (b : Byte) :
    leadLen b = some i ↔ topOnes i b = true ∧ b.getLsbD (7 - i) = false := by
  have h : ∀ b : Byte, ∀ i ∈ [2, 3, 4, 5, 6],
      (leadLen b = some i ↔ topOnes i b = true ∧ b.getLsbD (7 - i) = false) :=
    forall_byte_of_fin (by decide +kernel)
  exact h b i (by simp; omega)

/-- R62's first form, mask by mask. -/
theorem leadLen_eq_masks (b : Byte) :
    leadLen b =
      (if b &&& 0x80 = 0x00 then some 1
       else if b &&& 0xE0 = 0xC0 then some 2
       else if b &&& 0xF0 = 0xE0 then some 3
       else if b &&& 0xF8 = 0xF0 then some 4
       else if b &&& 0xFC = 0xF8 then some 5
       else if b &&& 0xFE = 0xFC then some 6
       else none) := by
  revert b; exact forall_byte_of_fin (by decide +kernel)

/-- Settles O1: the mask form on every byte, the one-byte clause from `leadLen_one_iff`, and the leading ones of
`leadLen_multi_iff` read bit by bit. -/
theorem leadLengthBothForms : Obligations.LeadLengthBothForms := by
  refine fun b => ⟨leadLen_eq_masks b, leadLen_one_iff b, fun i h2 h6 => ?_⟩
  rw [leadLen_multi_iff h2 h6, topOnes_iff (by omega)]

/-- Some row fits, it is the class's, and no other row fits (R61). -/
theorem leadRow_unique (b : Byte) :
    ∃ r ∈ leadRows, r.fits b = true ∧ r.cls = leadClass b ∧ ∀ q ∈ leadRows, q.fits b = true → q = r := by
  revert b; exact forall_byte_of_fin (by decide +kernel)

/-- The value ranges of R61's table. -/
theorem leadClass_eq_ranges (b : Byte) :
    leadClass b =
      (if b.toNat ≤ 0x7F then .f1
       else if b.toNat ≤ 0xBF then .stray
       else if b.toNat ≤ 0xDF then .f2
       else if b.toNat ≤ 0xEF then .f3
       else if b.toNat ≤ 0xF7 then .f4
       else if b.toNat ≤ 0xFB then .f5
       else if b.toNat ≤ 0xFD then .f6
       else if b.toNat = 0xFE then .leadFE
       else .leadFF) := by
  revert b; exact forall_byte_of_fin (by decide +kernel)

/-- Settles O2: one row fits, its class is the range's, and the class declares the length. -/
theorem leadClassesPartitionTheBytes : Obligations.LeadClassesPartitionTheBytes :=
  fun b => ⟨leadRow_unique b, leadClass_eq_ranges b, leadLen_eq_class b⟩

/-- The continuation bytes are the class `10xxxxxx` of invalid leads (R63). -/
theorem isCont_iff_stray (c : Byte) : isCont c = true ↔ leadClass c = .stray := by
  revert c; exact forall_byte_of_fin (by decide +kernel)

theorem leadClass_stray_iff (b : Byte) : leadClass b = .stray ↔ 0x80 ≤ b.toNat ∧ b.toNat ≤ 0xBF := by
  rw [leadClass_eq_ranges]
  split_ifs <;> simp <;> omega

/-- Settles O3: a continuation byte is a byte of the stray class, which declares no length. -/
theorem continuationBytes : Obligations.ContinuationBytes := by
  refine fun c => ⟨by simp [isCont], isCont_iff_tag c, (isCont_iff_stray c).trans (leadClass_stray_iff c),
    isCont_iff_stray c, fun h => ?_, rfl⟩
  rw [leadLen_eq_class, (isCont_iff_stray c).1 h]

/-- The one-byte leads by value (R61). -/
theorem leadLen_one_iff_lt (b : Byte) : leadLen b = some 1 ↔ b.toNat < 128 := by
  rw [leadLen_eq_class, leadClass_eq_ranges]
  split_ifs <;> simp <;> omega

/-- The invalid leads by value (R68). -/
theorem leadLen_none_iff (b : Byte) :
    leadLen b = none ↔ (0x80 ≤ b.toNat ∧ b.toNat ≤ 0xBF) ∨ b.toNat = 0xFE ∨ b.toNat = 0xFF := by
  have hb := b.isLt
  rw [leadLen_eq_class, leadClass_eq_ranges]
  split_ifs <;> simp <;> omega

/-- The multi-byte leads by value (R61). -/
theorem range_of_leadLen_multi {b : Byte} {i : Nat} (hl : leadLen b = some i) (h2 : 2 ≤ i) :
    0xC0 ≤ b.toNat ∧ b.toNat ≤ 0xFD := by
  rw [leadLen_eq_class, leadClass_eq_ranges] at hl
  split_ifs at hl <;> simp at hl <;> omega

/-! ### Command words -/

/-- Settles O6: every word is a flag bit before a data byte, which `decodeCmd_append` reads. -/
theorem commandWords : Obligations.CommandWords := by
  refine ⟨fun d => ⟨decodeCmd_append false d, decodeCmd_append true d⟩, fun w => ⟨w.extractLsb' 0 8, ?_⟩,
    fun c => decodeCmd_append c.eos c.data⟩
  rw [decodeCmd]
  split_ifs
  · exact .inr rfl
  · exact .inl rfl

/-! ### The value of a frame as a number -/

/-- R66's loop on numbers: each continuation byte is the next digit in base 64. -/
def bigEndian : Nat → List Byte → Nat
  | v, [] => v
  | v, c :: cs => bigEndian (v * 64 + (contBits c).toNat) cs

theorem contBits_toNat (c : Byte) : (contBits c).toNat = c.toNat % 64 := by simp [contBits]

theorem contBits_lt (c : Byte) : (contBits c).toNat < 64 := (contBits c).isLt

/-- The digits of a value below `n` stay below `n` times their weight. -/
theorem bigEndian_lt (cs : List Byte) : ∀ {v n : Nat}, v < n → bigEndian v cs < n * 64 ^ cs.length := by
  induction cs with
  | nil => intro v n h; simpa [bigEndian] using h
  | cons c cs ih =>
    intro v n h
    have hc := contBits_lt c
    have := ih (v := v * 64 + (contBits c).toNat) (n := n * 64) (by omega)
    rwa [List.length_cons, pow_succ', ← mul_assoc]

/-- The loop as one sum, the first continuation byte most significant (R66). -/
theorem bigEndian_eq_sum (cs : List Byte) : ∀ v, bigEndian v cs =
    v * 64 ^ cs.length +
      ((List.range cs.length).map fun j => (cs.getD j 0).toNat % 64 * 64 ^ (cs.length - 1 - j)).sum := by
  induction cs with
  | nil => simp [bigEndian]
  | cons c cs ih =>
    intro v
    rw [bigEndian, ih, contBits_toNat, List.length_cons, List.range_succ_eq_map]
    simp [Function.comp_def, Nat.sub_sub, Nat.add_comm 1, pow_succ', add_mul, mul_assoc, add_assoc]

/-- One turn of the assembler, with room for six more bits. -/
theorem shiftIn_toNat {v : Value} (c : Byte) (h : v.toNat < 2 ^ 25) :
    (shiftIn v c).toNat = v.toNat * 64 + (contBits c).toNat := by
  have hc := contBits_lt c
  have hv : v = (BitVec.ofNat 25 v.toNat).setWidth 31 := BitVec.eq_of_toNat_eq (by simp; omega)
  rw [hv, shiftIn_append, BitVec.toNat_setWidth, BitVec.toNat_append, ← Nat.shiftLeft_add_eq_or_of_lt hc,
    Nat.shiftLeft_eq]
  simp
  omega

/-- No intermediate value of the assembler is too wide, so it computes R66's number. -/
theorem foldl_shiftIn_toNat (cs : List Byte) : ∀ {v : Value} {n : Nat}, v.toNat < n → n * 64 ^ cs.length ≤ 2 ^ 31 →
    (cs.foldl shiftIn v).toNat = bigEndian v.toNat cs := by
  induction cs with
  | nil => intros; rfl
  | cons c cs ih =>
    intro v n hv hn
    have hc := contBits_lt c
    rw [List.length_cons, pow_succ', ← mul_assoc] at hn
    have hroom : n * 64 ≤ 2 ^ 31 := (Nat.le_mul_of_pos_right _ (by positivity)).trans hn
    have hs := shiftIn_toNat c (show v.toNat < 2 ^ 25 by omega)
    rw [List.foldl_cons, ih (n := n * 64) (by omega) hn, hs, bigEndian]

theorem leadBits_toNat {i : Nat} (b : Byte) : (leadBits i b).toNat = b.toNat % 2 ^ (7 - i) := by
  have hlt : b.toNat % 2 ^ (7 - i) < 2 ^ 31 := (Nat.mod_le _ _).trans_lt (b.isLt.trans (by norm_num))
  rw [leadBits, BitVec.toNat_setWidth, BitVec.extractLsb'_toNat, Nat.shiftRight_zero, Nat.mod_eq_of_lt hlt]

theorem two_pow_six_mul (n : Nat) : 2 ^ (6 * n) = 64 ^ n := pow_mul 2 6 n

/-- `P(i)` of a multi-byte frame: the lead's payload and six bits for each continuation byte (R65). -/
theorem two_pow_payloadWidth {i : Nat} (h2 : 2 ≤ i) :
    2 ^ Config.payloadWidth i = 2 ^ (7 - i) * 64 ^ (i - 1) := by
  rw [Config.payloadWidth, Config.leadPayload, if_neg (by omega), Config.contPayload, pow_add, two_pow_six_mul]

theorem payloadWidth_le {i : Nat} (h6 : i ≤ 6) : Config.payloadWidth i ≤ 31 := by
  interval_cases i <;> decide

/-- The value of a multi-byte frame is R66's number, and it is below `2^P(i)`. -/
theorem frame_value {i : Nat} {b0 : Byte} {cs : List Byte} (h2 : 2 ≤ i) (h6 : i ≤ 6) (hlen : cs.length = i - 1) :
    (cs.foldl shiftIn (leadBits i b0)).toNat = bigEndian (b0.toNat % 2 ^ (7 - i)) cs ∧
      bigEndian (b0.toNat % 2 ^ (7 - i)) cs < 2 ^ Config.payloadWidth i := by
  have hlead : b0.toNat % 2 ^ (7 - i) < 2 ^ (7 - i) := Nat.mod_lt _ (by positivity)
  have hwidth : 2 ^ (7 - i) * 64 ^ cs.length = 2 ^ Config.payloadWidth i := by rw [two_pow_payloadWidth h2, hlen]
  have hfit : 2 ^ Config.payloadWidth i ≤ 2 ^ 31 := Nat.pow_le_pow_right (by omega) (payloadWidth_le h6)
  refine ⟨?_, hwidth ▸ bigEndian_lt cs hlead⟩
  rw [foldl_shiftIn_toNat cs (n := 2 ^ (7 - i)) (by rwa [leadBits_toNat]) (hwidth ▸ hfit), leadBits_toNat]

/-- What a frame's bytes are and what number its value is. -/
theorem frame_cases {B : List Byte} {l : Nat} {v : Value} (h : decode B = .frame l v) :
    ∃ b0 rest, B = b0 :: rest ∧
      ((l = 1 ∧ b0.toNat < 128 ∧ v.toNat = b0.toNat) ∨
       (2 ≤ l ∧ l ≤ 6 ∧ l ≤ rest.length + 1 ∧
        v.toNat = bigEndian (b0.toNat % 2 ^ (7 - l)) (rest.take (l - 1)) ∧ v.toNat < 2 ^ Config.payloadWidth l)) := by
  cases B with
  | nil => simp at h
  | cons b0 rest =>
    refine ⟨b0, rest, rfl, ?_⟩
    rcases decode_cases b0 rest with ⟨hl, hd⟩ | ⟨-, hd⟩ | ⟨i, -, h2, h6, ⟨-, hd⟩ | ⟨-, -, hd⟩ | ⟨hs, -, hd⟩⟩ <;>
      obtain ⟨⟩ := h.symm.trans hd
    · have hlt := (leadLen_one_iff_lt b0).1 hl
      exact .inl ⟨rfl, hlt, by simp; omega⟩
    · have hlen : (rest.take (l - 1)).length = l - 1 := by rw [List.length_take]; omega
      obtain ⟨hv, hlt⟩ := frame_value (b0 := b0) h2 h6 hlen
      exact .inr ⟨h2, h6, hs, hv, hv ▸ hlt⟩

/-- A frame's length and the range of its value (R65). -/
theorem frame_bounds {B : List Byte} {l : Nat} {v : Value} (h : decode B = .frame l v) :
    1 ≤ l ∧ l ≤ 6 ∧ v.toNat < 2 ^ Config.payloadWidth l := by
  obtain ⟨b0, rest, -, ⟨rfl, hlt, hv⟩ | ⟨h2, h6, -, -, hlt⟩⟩ := frame_cases h
  · exact ⟨by omega, by omega, by rwa [hv]⟩
  · exact ⟨by omega, h6, hlt⟩

/-- Settles O5: a multi-byte value is the sum of `bigEndian_eq_sum` over the bytes after the lead. -/
theorem frameValueIsBigEndian : Obligations.FrameValueIsBigEndian := by
  intro B l v h
  obtain ⟨b0, rest, rfl, ⟨rfl, hlt, hv⟩ | ⟨h2, -, hs, hv, -⟩⟩ := frame_cases h
  · refine ⟨fun _ => ?_, fun h2 => by omega⟩
    simp only [List.getD_cons_zero]
    omega
  · refine ⟨fun h1 => by omega, fun _ => ?_⟩
    have hlen : (rest.take (l - 1)).length = l - 1 := by rw [List.length_take]; omega
    rw [hv, bigEndian_eq_sum, hlen, List.getD_cons_zero]
    congr 2
    refine List.map_congr_left fun j hj => ?_
    rw [List.mem_range] at hj
    simp [List.getD_eq_getElem?_getD, hj, Nat.sub_sub]

/-! ### The encoder -/

/-- The continuation bytes of `ENC` that carry the `n` low six-bit digits of `v` (R73). -/
def encTail (n v : Nat) : List Byte := (List.range n).reverse.map fun k => contByte (BitVec.ofNat 6 (v >>> (6 * k)))

theorem encTail_succ (n v : Nat) : encTail (n + 1) v = contByte (BitVec.ofNat 6 (v >>> (6 * n))) :: encTail n v := by
  simp [encTail, List.range_succ]

@[simp] theorem encTail_length (n v : Nat) : (encTail n v).length = n := by simp [encTail]

theorem isCont_of_mem_encTail {n v : Nat} {c : Byte} (h : c ∈ encTail n v) : isCont c = true := by
  obtain ⟨k, -, rfl⟩ := List.mem_map.1 h
  exact isCont_contByte _

/-- The digits of a number give it back. -/
theorem bigEndian_encTail (v : Nat) : ∀ n, bigEndian (v / 64 ^ n) (encTail n v) = v := by
  intro n
  induction n with
  | zero => simp [encTail, bigEndian]
  | succ n ih =>
    have hdigit : (BitVec.ofNat 6 (v >>> (6 * n))).toNat = v / 64 ^ n % 64 := by
      simp [Nat.shiftRight_eq_div_pow, two_pow_six_mul]
    have hstep : v / 64 ^ (n + 1) * 64 + v / 64 ^ n % 64 = v / 64 ^ n := by
      rw [pow_succ, ← Nat.div_div_eq_div_mul]; omega
    rw [encTail_succ, bigEndian, contBits_contByte, hdigit, hstep, ih]

/-- R73's continuation byte is `10` before the digit. -/
theorem ofNat_cont_eq_contByte (x : Nat) : BitVec.ofNat 8 (0x80 ||| (x &&& 0x3F)) = contByte (BitVec.ofNat 6 x) := by
  have h : ∀ p : BitVec 6, BitVec.ofNat 8 (0x80 ||| p.toNat) = contByte p := by decide +kernel
  rw [Nat.and_two_pow_sub_one_eq_mod x 6]
  exact h (BitVec.ofNat 6 x)

/-- The lead byte of `ENC` (R73), its payload given. -/
def encLead (i x : Nat) : Byte := BitVec.ofNat 8 ((((1 <<< i) - 1) <<< (8 - i)) ||| x)

theorem enc_multi {i : Nat} (h2 : 2 ≤ i) (v : Nat) : enc i v = encLead i (v / 64 ^ (i - 1)) :: encTail (i - 1) v := by
  rw [← two_pow_six_mul, ← Nat.shiftRight_eq_div_pow]
  simp only [enc, if_neg (show i ≠ 1 by omega), encLead, encTail, ofNat_cont_eq_contByte]

/-- The lead byte falls in the class of its length and carries its payload (R61). -/
theorem encLead_spec {i x : Nat} (h2 : 2 ≤ i) (h6 : i ≤ 6) (hx : x < 2 ^ (7 - i)) :
    leadLen (encLead i x) = some i ∧ (encLead i x).toNat % 2 ^ (7 - i) = x := by
  have h : ∀ i ∈ [2, 3, 4, 5, 6], ∀ x < 2 ^ (7 - i),
      leadLen (encLead i x) = some i ∧ (encLead i x).toNat % 2 ^ (7 - i) = x := by decide +kernel
  exact h i (by simp; omega) x hx

theorem decode_enc_one {v : Nat} (hv : v < 128) (S : List Byte) :
    decode (enc 1 v ++ S) = .frame 1 (BitVec.ofNat 31 v) := by
  have hl : leadLen (BitVec.ofNat 8 v) = some 1 := (leadLen_one_iff_lt _).2 (by simp; omega)
  refine (StateSteps.decode_of_leadLen_one hl S).trans (congrArg _ (BitVec.eq_of_toNat_eq ?_))
  simp
  omega

theorem decode_enc_multi {i v : Nat} (h2 : 2 ≤ i) (h6 : i ≤ 6) (hv : v < 2 ^ Config.payloadWidth i) (S : List Byte) :
    decode (enc i v ++ S) = .frame i (BitVec.ofNat 31 v) := by
  have hx : v / 64 ^ (i - 1) < 2 ^ (7 - i) :=
    Nat.div_lt_of_lt_mul (by rwa [mul_comm, ← two_pow_payloadWidth h2])
  obtain ⟨hl, hpay⟩ := encLead_spec h2 h6 hx
  have htake : (encTail (i - 1) v ++ S).take (i - 1) = encTail (i - 1) v := List.take_left' (encTail_length _ _)
  obtain ⟨hval, -⟩ := frame_value (b0 := encLead i (v / 64 ^ (i - 1))) h2 h6 (encTail_length (i - 1) v)
  rw [hpay, bigEndian_encTail] at hval
  rw [enc_multi h2, List.cons_append,
    decode_frame hl h2 (by simp; omega) fun c hc => isCont_of_mem_encTail (htake ▸ hc), htake]
  exact congrArg _ (by simpa using congrArg (BitVec.ofNat 31) hval)

/-- Settles O8: the one-byte form, and the multi-byte forms by their digits. -/
theorem encodedFrameDecodesBack : Obligations.EncodedFrameDecodesBack := by
  intro i v S h1 h6 hv
  rcases h1.eq_or_lt with rfl | h2
  · exact decode_enc_one hv S
  · exact decode_enc_multi h2 h6 hv S

/-- Settles O4: the bounds from `frame_bounds`, and a list for each value from the encoder. -/
theorem payloadWidthsAreExact : Obligations.PayloadWidthsAreExact := by
  refine ⟨by decide, fun _ => rfl, fun _ _ _ h => frame_bounds h, fun i v h1 h6 hv => ⟨enc i v, ?_⟩⟩
  simpa using encodedFrameDecodesBack i v [] h1 h6 hv

/-! ### Token words -/

/-- Which lead bytes a malformed result has (R68). -/
theorem malformed_lead {b0 : Byte} {rest : List Byte} {c : Cause} (h : decode (b0 :: rest) = .malformed c) :
    (c = .badLead ∧ leadLen b0 = none) ∨ (c = .badCont ∧ ∃ i, leadLen b0 = some i ∧ 2 ≤ i) := by
  rcases decode_cases b0 rest with ⟨-, hd⟩ | ⟨hl, hd⟩ | ⟨i, hl, h2, -, ⟨-, hd⟩ | ⟨-, -, hd⟩ | ⟨-, -, hd⟩⟩ <;>
    obtain ⟨⟩ := h.symm.trans hd
  · exact .inl ⟨rfl, hl⟩
  · exact .inr ⟨rfl, i, hl, h2⟩

/-- Every token the block offers is within R70's limits. -/
theorem offeredToken_legal {H : List Byte} {t : Token} (h : offeredToken H = some t) : t.legal = true := by
  obtain ⟨b0, rest, rfl, ⟨l, v, hd, -, -, -, ho⟩ | ⟨c, hd, ho⟩⟩ := offered_cases (resolvable_of_offered h) <;>
    obtain rfl := Option.some.inj (h.symm.trans ho)
  · exact decide_eq_true (frame_bounds hd)
  · rcases malformed_lead hd with ⟨rfl, hl⟩ | ⟨rfl, i, hl, h2⟩
    · exact decide_eq_true ((leadLen_none_iff b0).1 hl)
    · exact decide_eq_true (range_of_leadLen_multi hl h2)

/-- A byte as the value bus carries it, read back. -/
theorem value_of_byte (b : Byte) :
    (b.setWidth 31 : Value).toNat = b.toNat ∧ (b.setWidth 31 : Value).extractLsb' 0 8 = b :=
  ⟨BitVec.toNat_setWidth_of_le (by omega), BitVec.eq_of_toNat_eq (by simp; omega)⟩

/-- A token within R70's limits is the one its word carries. -/
theorem unpackToken_packToken {t : Token} (h : t.legal = true) : unpackToken (packToken t) = some t := by
  cases t with
  | frameTok l v =>
    obtain ⟨h1, h6, hlt⟩ := of_decide_eq_true h
    obtain ⟨hkind, hcause, hlen, hvalue⟩ := OutputLines.packToken_frameTok_fields v h6
    simp [unpackToken, hkind, hcause, hlen, hvalue, h1, h6, hlt]
  | malTok c b =>
    obtain ⟨hkind, hcause, hlen, hvalue⟩ := OutputLines.packToken_malTok_fields c b
    obtain ⟨hnat, hbyte⟩ := value_of_byte b
    have hb : b.toNat ≤ 255 := by have := b.isLt; omega
    cases c with
    | badLead =>
      have hl := (leadLen_none_iff b).2 (of_decide_eq_true h)
      simp [unpackToken, hkind, hcause, hlen, hvalue, hnat, hbyte, hb, hl, causeCode]
    | badCont =>
      have hr := of_decide_eq_true h
      simp [unpackToken, hkind, hcause, hlen, hvalue, hnat, hbyte, hb, hr, causeCode]

/-- Settles O7: the packed fields, with the limits of a legal token. -/
theorem tokenWords : Obligations.TokenWords := by
  intro H t ho
  have hlegal := offeredToken_legal ho
  refine ⟨?_, unpackToken_packToken hlegal⟩
  cases t with
  | frameTok l v =>
    obtain ⟨h1, h6, hlt⟩ := of_decide_eq_true hlegal
    obtain ⟨hkind, hcause, hlen, hvalue⟩ := OutputLines.packToken_frameTok_fields v h6
    have hnat := congrArg BitVec.toNat hvalue
    exact ⟨hkind, hcause, hlen, hnat, h1, h6, hnat ▸ hlt⟩
  | malTok c b =>
    obtain ⟨hkind, hcause, hlen, hvalue⟩ := OutputLines.packToken_malTok_fields c b
    have hnat := (congrArg BitVec.toNat hvalue).trans (value_of_byte b).1
    cases c with
    | badLead => exact ⟨hkind, hcause, hlen, hnat, hnat ▸ of_decide_eq_true hlegal⟩
    | badCont => exact ⟨hkind, hcause, hlen, hnat, hnat ▸ of_decide_eq_true hlegal⟩

end Sys2Proof.Encoding

/-! PROOFS. The frame decoder (40_decoder.md R81 to R97): `decode` from the declared length, when it gives each result,
the frame formats by their bit fields, locality, and the token of a result. -/

namespace Sys2Proof.FrameDecoder

open Sys2Proof Sys2Proof.Machine Sys2Proof.Laws

/-! ### `decode` from the declared length -/

/-- The checks after the lead byte of a multi-byte frame, as one function of the bytes that follow (R144, 4 to 6). -/
theorem decode_multi {b0 : Byte} {i : Nat} (hl : leadLen b0 = some i) (h2 : 2 ≤ i) (rest : List Byte) :
    decode (b0 :: rest) =
      if rest.length + 1 < i then .needMore i
      else (assemble (leadBits i b0) (rest.take (i - 1))).elim (.malformed .badCont) (.frame i) := by
  have h7 : ¬ b0.getLsbD 7 = false := by
    rw [← leadLen_one_iff, hl, Option.some.injEq]
    omega
  rw [decode, if_neg h7, hl]
  cases h : assemble (leadBits i b0) (rest.take (i - 1)) <;> simp [h]

theorem decode_needMore {b0 : Byte} {rest : List Byte} {i : Nat} (hl : leadLen b0 = some i)
    (hs : rest.length + 1 < i) : decode (b0 :: rest) = .needMore i := by
  rw [decode_multi hl (by omega), if_pos hs]

theorem decode_badCont {b0 : Byte} {rest : List Byte} {i : Nat} (hl : leadLen b0 = some i) (h2 : 2 ≤ i)
    (hs : i ≤ rest.length + 1) (hbad : ∃ c ∈ rest.take (i - 1), isCont c = false) :
    decode (b0 :: rest) = .malformed .badCont := by
  rw [decode_multi hl h2, if_neg (by omega), (assemble_none_iff _ _).2 hbad, Option.elim_none]

/-! ### When each result is given -/

theorem decode_badLead_iff (b0 : Byte) (rest : List Byte) :
    decode (b0 :: rest) = .malformed .badLead ↔ leadLen b0 = none := by
  refine ⟨fun h => ?_, fun hl => StateSteps.decode_of_leadLen_none hl rest⟩
  rcases Encoding.malformed_lead h with ⟨-, hl⟩ | ⟨hc, -⟩
  · exact hl
  · cases hc

theorem decode_badCont_iff (b0 : Byte) (rest : List Byte) :
    decode (b0 :: rest) = .malformed .badCont ↔
      ∃ i, leadLen b0 = some i ∧ 2 ≤ i ∧ i ≤ rest.length + 1 ∧ ∃ c ∈ rest.take (i - 1), isCont c = false := by
  refine ⟨fun h => ?_, fun ⟨i, hl, h2, hs, hbad⟩ => decode_badCont hl h2 hs hbad⟩
  rcases decode_cases b0 rest with ⟨-, hd⟩ | ⟨-, hd⟩ | ⟨i, hl, h2, -, ⟨-, hd⟩ | ⟨hs, hbad, -⟩ | ⟨-, -, hd⟩⟩
  case inr.inr.inr.inl => exact ⟨i, hl, h2, hs, hbad⟩
  all_goals cases h.symm.trans hd

theorem need_of_leadLen_none {b : Byte} (hl : leadLen b = none) : need b = 1 := by rw [need, hl]

/-- A malformed result consumes its lead byte only (R93, R94). -/
theorem consumed_of_malformed {B : List Byte} {c : Cause} (h : decode B = .malformed c) : (decode B).consumed = 1 := by
  rw [h, DecodeResult.consumed]

/-- Settles O16: a BAD_LEAD is a lead byte with no declared length, whatever follows it. -/
theorem badLeadNeedsOneByte : Obligations.BadLeadNeedsOneByte := fun b0 rest =>
  ⟨(Encoding.leadLen_none_iff b0).symm.trans (decode_badLead_iff b0 rest).symm, fun h =>
    ⟨need_of_leadLen_none ((decode_badLead_iff b0 rest).1 h), consumed_of_malformed h⟩⟩

/-- Settles O18: NeedMore is the result of a buffer that is not resolvable, and that is one shorter than `need`. -/
theorem needMoreExactlyWhenShort : Obligations.NeedMoreExactlyWhenShort := by
  refine ⟨fun b => ⟨fun i _ _ hl => need_of_leadLen hl, fun h => h.elim need_of_leadLen need_of_leadLen_none⟩,
    fun B => ?_⟩
  have hrest : (∃ i, decode B = .needMore i) ↔ ¬ resolvable B = true := by
    rw [OutputLines.resolvable_iff, not_forall_not]
  rw [hrest]
  cases B with
  | nil => simp
  | cons b0 rest => simp [-Bool.not_eq_true, resolvable_cons_iff]

/-! ### Bad continuation bytes -/

/-- The tags that are not `10` (R63). -/
theorem isCont_false_iff_tag (c : Byte) :
    isCont c = false ↔ c.extractLsb' 6 2 = 0b00#2 ∨ c.extractLsb' 6 2 = 0b01#2 ∨ c.extractLsb' 6 2 = 0b11#2 := by
  have htags : ∀ t : BitVec 2, t ≠ 0b10#2 ↔ t = 0b00#2 ∨ t = 0b01#2 ∨ t = 0b11#2 := by decide
  rw [← Bool.not_eq_true, isCont_iff_tag, ← htags]

/-- The continuation bytes of a frame are its positions 1 to `i - 1`. -/
theorem exists_cont_iff {b0 : Byte} {rest : List Byte} {i : Nat} (hs : i ≤ rest.length + 1) (P : Byte → Prop) :
    (∃ c ∈ rest.take (i - 1), P c) ↔ ∃ k, 1 ≤ k ∧ k < i ∧ P ((b0 :: rest).getD k 0) := by
  constructor
  · rintro ⟨c, hc, hP⟩
    obtain ⟨k, hk, rfl⟩ := List.mem_take_iff_getElem.1 hc
    exact ⟨k + 1, by omega, by omega, by rwa [List.getD_cons_succ, List.getD_eq_getElem]⟩
  · rintro ⟨k, h1, hk, hP⟩
    obtain ⟨k, rfl⟩ := Nat.exists_eq_add_of_le' h1
    rw [List.getD_cons_succ, List.getD_eq_getElem _ _ (by omega)] at hP
    exact ⟨_, List.mem_take_iff_getElem.2 ⟨k, by omega, rfl⟩, hP⟩

/-- Settles O17: `decode_badCont_iff`, with the bad byte found by its position and its tag. -/
theorem badContExactlyWhen : Obligations.BadContExactlyWhen := by
  refine fun B => ⟨⟨fun h => ?_, ?_⟩, consumed_of_malformed⟩
  · cases B with
    | nil => simp at h
    | cons b0 rest =>
      obtain ⟨i, hl, h2, hs, hbad⟩ := (decode_badCont_iff b0 rest).1 h
      obtain ⟨k, h1, hk, htag⟩ := (exists_cont_iff hs _).1 hbad
      exact ⟨b0, rest, i, k, rfl, hl, h2, (leadLen_range b0 i hl).2, hs, h1, hk, (isCont_false_iff_tag _).1 htag⟩
  · rintro ⟨b0, rest, i, k, rfl, hl, h2, -, hs, h1, hk, htag⟩
    exact decode_badCont hl h2 hs ((exists_cont_iff hs _).2 ⟨k, h1, hk, (isCont_false_iff_tag _).2 htag⟩)

/-! ### Locality -/

/-- A lead byte declares one byte, none, or 2 to 6 bytes (R62). -/
theorem leadLen_cases (b : Byte) : leadLen b = some 1 ∨ leadLen b = none ∨ ∃ i, leadLen b = some i ∧ 2 ≤ i := by
  cases hl : leadLen b with
  | none => exact .inr (.inl rfl)
  | some i =>
    rcases (leadLen_range b i hl).1.eq_or_lt with rfl | h2
    · exact .inl rfl
    · exact .inr (.inr ⟨i, rfl, h2⟩)

/-- A list with enough bytes is decided by its lead and the first `need - 1` bytes after it (R81). -/
theorem decode_congr {b0 : Byte} {r q : List Byte} (hr : need b0 ≤ r.length + 1) (hq : need b0 ≤ q.length + 1)
    (h : r.take (need b0 - 1) = q.take (need b0 - 1)) : decode (b0 :: r) = decode (b0 :: q) := by
  rcases leadLen_cases b0 with hl | hl | ⟨i, hl, h2⟩
  · rw [StateSteps.decode_of_leadLen_one hl, StateSteps.decode_of_leadLen_one hl]
  · rw [StateSteps.decode_of_leadLen_none hl, StateSteps.decode_of_leadLen_none hl]
  · rw [need_of_leadLen hl] at hr hq h
    rw [decode_multi hl h2, decode_multi hl h2, if_neg (by omega), if_neg (by omega), h]

/-- A list that falls short is decided by its lead (R81, R82). -/
theorem decode_of_short {b0 : Byte} {rest : List Byte} (h : rest.length + 1 < need b0) :
    decode (b0 :: rest) = .needMore (need b0) := by
  cases hl : leadLen b0 with
  | none => rw [need_of_leadLen_none hl] at h; omega
  | some i => rw [need_of_leadLen hl] at h ⊢; exact decode_needMore hl h

theorem consumed_le_need (b0 : Byte) (rest : List Byte) : (decode (b0 :: rest)).consumed ≤ need b0 := by
  have hpos := need_pos b0
  rcases decode_cases b0 rest with ⟨-, hd⟩ | ⟨-, hd⟩ | ⟨i, hl, -, -, ⟨-, hd⟩ | ⟨-, -, hd⟩ | ⟨-, -, hd⟩⟩ <;>
    rw [hd, DecodeResult.consumed]
  case inr.inr.inr.inr => exact (need_of_leadLen hl).ge
  all_goals omega

/-- Settles O19: the two cases of R81, the lead byte split off the bytes that agree. -/
theorem decodeIsLocal : Obligations.DecodeIsLocal := by
  refine ⟨fun b0 r q hr hq h => decode_congr hr hq ?_, fun b0 r q hr hq => ?_, consumed_le_need⟩
  · rw [List.take_cons (need_pos b0), List.take_cons (need_pos b0)] at h
    exact List.tail_eq_of_cons_eq h
  · exact (decode_of_short hr).trans (decode_of_short hq).symm

/-! ### The frame formats by their bit fields -/

/-- The lead byte of R64's layouts: the pattern declares the length, and the payload is the bits after it. -/
theorem lead_of_pattern :
    (∀ a : BitVec 7, leadLen (0b0#1 ++ a) = some 1 ∧ (0b0#1 ++ a : Byte).extractLsb' 0 7 = a) ∧
    (∀ a : BitVec 5, leadLen (0b110#3 ++ a) = some 2 ∧ leadBits 2 (0b110#3 ++ a) = a.setWidth 31) ∧
    (∀ a : BitVec 4, leadLen (0b1110#4 ++ a) = some 3 ∧ leadBits 3 (0b1110#4 ++ a) = a.setWidth 31) ∧
    (∀ a : BitVec 3, leadLen (0b11110#5 ++ a) = some 4 ∧ leadBits 4 (0b11110#5 ++ a) = a.setWidth 31) ∧
    (∀ a : BitVec 2, leadLen (0b111110#6 ++ a) = some 5 ∧ leadBits 5 (0b111110#6 ++ a) = a.setWidth 31) ∧
    (∀ a : BitVec 1, leadLen (0b1111110#7 ++ a) = some 6 ∧ leadBits 6 (0b1111110#7 ++ a) = a.setWidth 31) := by
  decide +kernel

/-- The multi-byte leads of R88 to R92, by value. -/
theorem leadLen_of_range {b : Byte} {i : Nat}
    (h : (i = 2 ∧ 0xC0 ≤ b.toNat ∧ b.toNat ≤ 0xDF) ∨ (i = 3 ∧ 0xE0 ≤ b.toNat ∧ b.toNat ≤ 0xEF) ∨
      (i = 4 ∧ 0xF0 ≤ b.toNat ∧ b.toNat ≤ 0xF7) ∨ (i = 5 ∧ 0xF8 ≤ b.toNat ∧ b.toNat ≤ 0xFB) ∨
      (i = 6 ∧ 0xFC ≤ b.toNat ∧ b.toNat ≤ 0xFD)) : leadLen b = some i := by
  rw [leadLen_eq_class, Encoding.leadClass_eq_ranges]
  split_ifs <;> grind

/-- Well-formed continuation bytes pass whatever they carry, and each is folded into the lead's payload. -/
theorem decode_contBytes {b0 : Byte} {n i : Nat} {a : BitVec n}
    (hlead : leadLen b0 = some i ∧ leadBits i b0 = a.setWidth 31) (ps : List (BitVec 6)) (h2 : 2 ≤ i)
    (hps : ps.length = i - 1) (S : List Byte) :
    decode (b0 :: (ps.map contByte ++ S)) = .frame i ((ps.map contByte).foldl shiftIn (a.setWidth 31)) := by
  obtain ⟨hl, hbits⟩ := hlead
  have htake : (ps.map contByte ++ S).take (i - 1) = ps.map contByte := List.take_left' (by simpa using hps)
  have hgood : ∀ c ∈ (ps.map contByte ++ S).take (i - 1), isCont c = true := by simp [htake]
  rw [decode_frame hl h2 (by simp; omega) hgood, htake, hbits]

/-- Settles O15: the lead's payload with six bits appended a turn, and the two other results of a multi-byte lead. -/
theorem frameFormatsDecode : Obligations.FrameFormatsDecode := by
  obtain ⟨hF1, hF2, hF3, hF4, hF5, hF6⟩ := lead_of_pattern
  refine ⟨fun a S => ?_, fun a p S => ?_, fun a p q S => ?_, fun a p q r S => ?_, fun a p q r t S => ?_,
    fun a p q r t u S => ?_, fun b0 rest i hi => ?_⟩
  · obtain ⟨hl, hbits⟩ := hF1 a
    rw [StateSteps.decode_of_leadLen_one hl, hbits]
  · simpa [shiftIn_append] using decode_contBytes (hF2 a) [p] (by omega) rfl S
  · simpa [shiftIn_append] using decode_contBytes (hF3 a) [p, q] (by omega) rfl S
  · simpa [shiftIn_append] using decode_contBytes (hF4 a) [p, q, r] (by omega) rfl S
  · simpa [shiftIn_append] using decode_contBytes (hF5 a) [p, q, r, t] (by omega) rfl S
  · simpa [shiftIn_append] using decode_contBytes (hF6 a) [p, q, r, t, u] (by omega) rfl S
  · have hl := leadLen_of_range hi
    refine ⟨decode_needMore hl, fun hs ⟨c, hc, htag⟩ => decode_badCont hl (by omega) hs ⟨c, hc, ?_⟩⟩
    rwa [← Bool.not_eq_true, isCont_iff_tag]

/-! ### The token of a result -/

theorem offeredToken_of_decode {b0 : Byte} {rest : List Byte} {r : DecodeResult} (h : decode (b0 :: rest) = r) :
    offeredToken (b0 :: rest) = tokenOf r b0 := by rw [offeredToken, h]

/-- Settles O20: the three cases of R97. -/
theorem tokenConstruction : Obligations.TokenConstruction := fun _ _ =>
  ⟨fun _ _ h => ⟨offeredToken_of_decode h, rfl⟩, fun _ h => ⟨offeredToken_of_decode h, rfl⟩,
    fun _ h => offeredToken_of_decode h⟩

end Sys2Proof.FrameDecoder

/-! PROOFS. FEED (41_reassembler.md R100 to R102, R108): one turn of its loop, its postconditions, and that how a
session's bytes are split into chunks does not matter. -/

namespace Sys2Proof.FeedLoop

open Sys2Proof Sys2Proof.Machine Sys2Proof.Safety Sys2Proof.Laws

/-! ### One turn of the loop -/

theorem exists_offered {H : List Byte} (h : resolvable H = true) : ∃ t, offeredToken H = some t :=
  Option.isSome_iff_exists.1 ((offeredToken_isSome H).trans h)

/-- FEED stops at a NeedMore and retains the rest. -/
theorem feed_needMore {b0 : Byte} {rest : List Byte} {i : Nat} (hd : decode (b0 :: rest) = .needMore i) :
    feed [] (b0 :: rest) = ⟨[], b0 :: rest, 0, i⟩ := by
  rw [feed_rest (OutputLines.resolvable_of_needMore hd), OutputLines.needLenNat_of_needMore hd]

/-- Settles O36: a frame or a malformed byte is a turn of `feed_offered`, whose token is `tokenOf` of the result. -/
theorem feedLoopTurnByTurn : Obligations.FeedLoopTurnByTurn := by
  intro R C
  rw [feed_eq R C]
  refine ⟨fun hB => ?_, fun b0 rest hB => ?_⟩ <;> rw [hB]
  · rfl
  · exact ⟨fun l v hd => feed_offered (FrameDecoder.offeredToken_of_decode hd),
      fun c hd => feed_offered (FrameDecoder.offeredToken_of_decode hd), fun i hd => feed_needMore hd⟩

/-! ### What FEED returns -/

theorem feed_retained_rest (R C : List Byte) : resolvable (feed R C).retained = false := by
  rw [feed_eq]
  exact frameStarts_rest (frameStarts_feed _)

theorem feed_need (R C : List Byte) : (feed R C).need = needLenNat (feed R C).retained := by
  rw [feed_eq]
  induction R ++ C using stream_induction with
  | rest B h => rw [feed_rest h]
  | turn B t h ih => rw [feed_offered h, ih]

/-- R101 (a) and (d): the offset stays within the buffer, and what is retained stands there. -/
theorem feed_retained (R C : List Byte) :
    (feed R C).consumed ≤ (R ++ C).length ∧ (feed R C).retained = (R ++ C).drop (feed R C).consumed := by
  rw [feed_eq]
  induction R ++ C using stream_induction with
  | rest B h => simp [feed_rest h]
  | turn B t h ih =>
    obtain ⟨-, hlen, -⟩ := offered_len h
    rw [List.length_drop, List.drop_drop] at ih
    rw [feed_offered h]
    refine ⟨?_, ih.2⟩
    dsimp only
    omega

/-- R101 (c): the lengths of the tokens sum to what is consumed, and each is at least 1. -/
theorem feed_tokens (R C : List Byte) :
    ((feed R C).toks.map Token.len).sum = (feed R C).consumed ∧ (feed R C).toks.length ≤ (feed R C).consumed := by
  rw [feed_eq]
  induction R ++ C using stream_induction with
  | rest B h => simp [feed_rest h]
  | turn B t h ih =>
    obtain ⟨hpos, -, -⟩ := offered_len h
    obtain ⟨hsum, hcount⟩ := ih
    rw [feed_offered h]
    refine ⟨by simp [hsum], ?_⟩
    simp only [List.length_cons]
    omega

/-- R101 (b) of a buffer at rest: it is empty, or it waits for the length that its lead declares. -/
theorem rest_needLen_cases {H : List Byte} (h : resolvable H = false) :
    (H = [] ∧ needLenNat H = 0) ∨
      (decode H = .needMore (needLenNat H) ∧ 2 ≤ needLenNat H ∧ needLenNat H ≤ 6 ∧ H.length < needLenNat H) := by
  rcases rest_cases h with rfl | ⟨b0, rest, i, rfl, -, h2, h6, hlt, hd⟩
  · exact .inl ⟨rfl, rfl⟩
  · rw [OutputLines.needLenNat_of_needMore hd]
    exact .inr ⟨hd, h2, h6, hlt⟩

/-- A non-empty buffer that waits for `i` bytes begins with a lead that declares them. -/
theorem held_lead {H : List Byte} {i : Nat} (hne : H ≠ []) (hd : decode H = .needMore i) :
    ∃ b0 rest, H = b0 :: rest ∧ leadLen b0 = some i ∧ 2 ≤ i := by
  rcases rest_cases (OutputLines.resolvable_of_needMore hd) with hn | ⟨b0, rest, j, hH, hl, h2, -, -, hd'⟩
  · exact absurd hn hne
  · obtain rfl : j = i := by simpa [hd] using hd'.symm
    exact ⟨b0, rest, hH, hl, h2⟩

/-- Bytes that do not complete the held frame leave it waiting for the same length. -/
theorem decode_append_short {R C : List Byte} {i : Nat} (hne : R ≠ []) (hd : decode R = .needMore i)
    (hlt : R.length + C.length < i) : decode (R ++ C) = .needMore i := by
  obtain ⟨b0, rest, rfl, hl, -⟩ := held_lead hne hd
  rw [List.cons_append]
  refine FrameDecoder.decode_needMore hl ?_
  rw [List.length_cons] at hlt
  rw [List.length_append]
  omega

/-- R101 (e). -/
theorem feed_short {R C : List Byte} {i : Nat} (hne : R ≠ []) (hd : decode R = .needMore i)
    (hlt : R.length + C.length < i) : feed R C = ⟨[], R ++ C, 0, i⟩ := by
  obtain ⟨b0, rest, rfl⟩ := List.exists_cons_of_ne_nil hne
  rw [feed_eq]
  exact feed_needMore (decode_append_short hne hd hlt)

/-- Settles O38: what is retained is at rest, which gives (b) and its five bytes. -/
theorem feedPostconditions : Obligations.FeedPostconditions := by
  intro R C r
  have hrest := feed_retained_rest R C
  obtain ⟨hle, hret⟩ := feed_retained R C
  refine ⟨⟨hret, ?_⟩, ?_, rest_length hrest, (feed_tokens R C).1, hle, fun i hne hd hlt => ?_⟩
  · rw [← List.length_append, hret, List.length_drop]
    exact Nat.add_sub_cancel' hle
  · rw [feed_need R C]
    exact rest_needLen_cases hrest
  · have hshort := feed_short hne hd hlt
    exact ⟨congrArg FeedResult.toks hshort, congrArg FeedResult.retained hshort,
      congrArg FeedResult.consumed hshort, congrArg FeedResult.need hshort⟩

theorem feed_nil (R : List Byte) : feed R [] = feed [] R := by rw [feed_eq, List.append_nil]

/-- Settles O39: `feed_rest` on a buffer at rest, one turn of `feed_offered` on a resolvable one. -/
theorem feedEmptyChunk : Obligations.FeedEmptyChunk := by
  refine ⟨fun R h => (feed_nil R).trans (feed_rest h), fun R h => ?_⟩
  obtain ⟨t, ht⟩ := exists_offered h
  exact ⟨t, ht, by rw [feed_nil, feed_offered ht]⟩

/-! ### Chunk independence -/

/-- FEED of more bytes goes on from what it retained (R108's reason): the results are joined. -/
theorem feed_append (R C D : List Byte) :
    feed R (C ++ D) =
      ⟨(feed R C).toks ++ (feed (feed R C).retained D).toks, (feed (feed R C).retained D).retained,
        (feed R C).consumed + (feed (feed R C).retained D).consumed, (feed (feed R C).retained D).need⟩ := by
  rw [feed_eq R (C ++ D), ← List.append_assoc, feed_eq R C]
  induction R ++ C using stream_induction with
  | rest B h => simp [feed_rest h, feed_eq B D]
  | turn B t h ih =>
    rw [feed_offered (offeredToken_append h D), List.drop_append_of_le_length (offered_len h).2.1, ih,
      feed_offered h]
    simp [Nat.add_assoc]

theorem feedChunks_eq_feed (Cs : List (List Byte)) : ∀ {R : List Byte}, resolvable R = false →
    feedChunks R Cs = ((feed R Cs.flatten).toks, (feed R Cs.flatten).retained, (feed R Cs.flatten).consumed) := by
  induction Cs with
  | nil =>
    intro R h
    rw [List.flatten_nil, feed_nil, feed_rest h, feedChunks]
  | cons C Cs ih =>
    intro R _
    rw [feedChunks, ih (feed_retained_rest R C), List.flatten_cons, feed_append]

/-- Settles O40: `feedChunks_eq_feed` from the empty buffer, which is at rest. -/
theorem chunkIndependence : Obligations.ChunkIndependence := fun Cs => feedChunks_eq_feed Cs resolvable_nil

end Sys2Proof.FeedLoop

/-! PROOFS. The ports and drains of the reassembler (41_reassembler.md R103 to R109): the three port operations when
they are enabled, drains, the byte-serial run, and what a drained session has delivered. -/

namespace Sys2Proof.Reassembler

open Sys2Proof Sys2Proof.Machine Sys2Proof.Safety Sys2Proof.Laws Sys2Proof.FeedLoop

/-! ### The port operations -/

/-- A single byte waits exactly when it is a multi-byte lead. -/
theorem rest_singleton_iff (b : Byte) : resolvable [b] = false ↔ ∃ i, 2 ≤ i ∧ leadLen b = some i := by
  rw [← Bool.not_eq_true, resolvable_cons_iff]
  rcases FrameDecoder.leadLen_cases b with hl | hl | ⟨i, hl, h2⟩
  · simp [need_of_leadLen hl, hl]
  · simp [FrameDecoder.need_of_leadLen_none hl, hl]
  · refine iff_of_true ?_ ⟨i, h2, hl⟩
    rw [need_of_leadLen hl, List.length_nil]
    omega

/-- The byte that completes the held frame makes H resolvable, and BAD_CONT if some continuation is bad (R103). -/
theorem complete_frame {H : List Byte} {i : Nat} (b : Byte) (hd : decode H = .needMore i) (hne : H ≠ [])
    (hlen : H.length + 1 = i) :
    resolvable (H ++ [b]) = true ∧
      ((∃ k, 1 ≤ k ∧ k < i ∧ isCont ((H ++ [b]).getD k 0) = false) → decode (H ++ [b]) = .malformed .badCont) := by
  obtain ⟨b0, rest, rfl, hl, h2⟩ := held_lead hne hd
  have hfull : i ≤ (rest ++ [b]).length + 1 := by simpa using hlen.ge
  rw [List.cons_append]
  refine ⟨?_, fun hbad => FrameDecoder.decode_badCont hl h2 hfull ((FrameDecoder.exists_cont_iff hfull _).2 hbad)⟩
  rwa [resolvable_cons_iff, need_of_leadLen hl]

theorem length_append_le {H : List Byte} (b : Byte) (h : resolvable H = false) : (H ++ [b]).length ≤ 6 := by
  have h5 := rest_length h
  rw [List.length_append, List.length_singleton]
  omega

/-- Settles O30: IN_BYTE on a buffer at rest, then what the longer buffer decodes to. -/
theorem inByteAppends : Obligations.InByteAppends := by
  intro s b h
  have hr : resolvable s.hold = false := by simpa using h
  refine ⟨execInByte_ready b hr, length_append_le b hr, fun hn => ?_, fun i => complete_frame b⟩
  rw [hn]
  exact rest_singleton_iff b

/-- Settles O31: `execOutToken_offered`, with the offered token's length from `offered_len`. -/
theorem outTokenDelivers : Obligations.OutTokenDelivers := by
  intro s h
  obtain ⟨t, ht⟩ := exists_offered h
  obtain ⟨hpos, hlen, -⟩ := offered_len ht
  refine ⟨t, ht, execOutToken_offered ht, hpos, hlen, fun h6 => ?_⟩
  rw [List.length_drop]
  omega

/-- Settles O33: IN_EOS on a block that is ready is a session boundary, after which H is empty. -/
theorem inEosDiscardsTheTail : Obligations.InEosDiscardsTheTail := by
  intro s x h
  have hexec := execInEos_ready x (s := s) (by simpa using h)
  refine ⟨hexec, fun t ht => ?_⟩
  obtain rfl : takeOffered (endSession s) = t := by simpa [hexec] using ht
  exact ⟨by simp [delivered], rfl, rfl, rfl, rfl⟩

/-! ### The session's part of a state -/

/-- What R107 compares: H and the records of the session (log 4). The environment's lines, the record of returned
results and the counter of steps are blanked out. -/
def session (s : State) : State := { s with inputs := [], offered := none, decoded := none, fed := none, tick := 0 }

/-- FEED of an empty chunk on a buffer at rest is no change. -/
theorem session_runFeed_rest {s : State} (h : resolvable s.hold = false) : session (runFeed [] s) = session s := by
  simp [session, runFeed, feed_nil, feed_rest h]

/-- FEED of an empty chunk is the same before and after delivering the offered token. -/
theorem session_runFeed_deliver {s : State} {t : Token} (h : offeredToken s.hold = some t) (r : DecodeResult) :
    session (runFeed [] (deliver t (noteDecoded r s))) = session (runFeed [] s) := by
  simp [session, runFeed, deliver, noteDecoded, feed_nil, feed_offered h, Nat.add_assoc]

/-- Accepting a byte and then feeding nothing is feeding the byte. -/
theorem session_runFeed_acceptByte (d : Byte) (s : State) :
    session (runFeed [] (acceptByte d s)) = session (runFeed [d] s) := by
  simp [session, runFeed, acceptByte, feed_nil, feed_eq s.hold]

/-- Feeding two chunks is feeding them joined. -/
theorem session_runFeed_append (C D : List Byte) (s : State) :
    session (runFeed D (runFeed C s)) = session (runFeed (C ++ D) s) := by
  simp [session, runFeed, feed_append s.hold C D, Nat.add_assoc]

/-- FEED of a chunk reads and writes the session's part alone. -/
theorem session_runFeed_congr {s t : State} (h : session s = session t) (C : List Byte) :
    session (runFeed C s) = session (runFeed C t) :=
  show session (runFeed C (session s)) = session (runFeed C (session t)) by rw [h]

/-- What a state holds whose session is that of FEED's. -/
theorem fields_of_session {s t : State} {C : List Byte} (h : session t = session (runFeed C s)) :
    t.hold = (feed s.hold C).retained ∧ t.accepted = s.accepted ++ C ∧ t.pos = s.pos + (feed s.hold C).consumed ∧
      t.tokens = s.tokens ++ (feed s.hold C).toks ∧ t.earlier = s.earlier := by
  simpa [session] using h

/-! ### Drains -/

/-- As many OUT_TOKENs as FEED gives tokens drain H, and they do what FEED of nothing does (R107). -/
theorem takeTokens_drain (s : State) : ∃ u, takeTokens (feed [] s.hold).toks.length s = .next u ∧
    session u = session (runFeed [] s) := by
  generalize hB : s.hold = B
  induction B using stream_induction generalizing s with
  | rest B h =>
    rw [feed_rest h]
    exact ⟨s, rfl, (session_runFeed_rest (hB ▸ h)).symm⟩
  | turn B t h ih =>
    subst hB
    obtain ⟨u, hu, hsession⟩ := ih (deliver t (noteDecoded (decode s.hold) s)) rfl
    refine ⟨u, ?_, hsession.trans (session_runFeed_deliver h _)⟩
    rw [feed_offered h, List.length_cons, takeTokens, execOutToken_offered h]
    exact hu

/-- A drain of at most six bytes delivers at most six tokens (R106). -/
theorem drain_length_le {H : List Byte} (h : H.length ≤ 6) : (feed [] H).toks.length ≤ 6 :=
  (feed_tokens [] H).2.trans ((feed_retained [] H).1.trans h)

/-- The first clause of R106: within six OUT_TOKENs the block is ready, each of them having delivered a token. -/
theorem drain_within_six {s : State} (hlen : s.hold.length ≤ 6) : ∃ n, n ≤ 6 ∧ Answers (takeTokens n s) fun u =>
    inReady u.hold = true ∧ u.tokens.length = s.tokens.length + n ∧ u.earlier = s.earlier := by
  obtain ⟨u, hu, hsession⟩ := takeTokens_drain s
  obtain ⟨hhold, -, -, htokens, hearlier⟩ := fields_of_session hsession
  refine ⟨_, drain_length_le hlen, u, hu, ?_, by simp [htokens, feed_nil], hearlier⟩
  rw [inReady_eq, hhold, feed_retained_rest]
  rfl

/-- R106's example: a six-byte lead with four good continuations, then a bad one. -/
theorem feed_longest_drain : feed [] [0xFC, 0x80, 0x80, 0x80, 0x80, 0x41] =
    ⟨[.malTok .badCont 0xFC, .malTok .badLead 0x80, .malTok .badLead 0x80, .malTok .badLead 0x80,
      .malTok .badLead 0x80, .frameTok 1 0x41], [], 6, 0⟩ := by decide

/-- Settles O43: an accepted byte leaves at most six bytes, and a drain is FEED of nothing. -/
theorem drainsEndWithinSixTokens : Obligations.DrainsEndWithinSixTokens := by
  refine ⟨fun s => drain_within_six, fun s b h => ?_, fun s hH => ?_⟩
  · have hr : resolvable s.hold = false := by simpa using h
    obtain ⟨n, hn, u, hu, hready, hcount, -⟩ := drain_within_six (s := acceptByte b s) (length_append_le b hr)
    exact ⟨_, execInByte_ready b hr, n, hn, u, hu, hready, hcount⟩
  · have hr : resolvable s.hold = false := by rw [hH]; decide
    have hhold : (acceptByte 0x41 s).hold = [0xFC, 0x80, 0x80, 0x80, 0x80, 0x41] := by rw [acceptByte_hold, hH]; rfl
    obtain ⟨u, hu, hsession⟩ := takeTokens_drain (acceptByte 0x41 s)
    obtain ⟨hret, -, -, htokens, -⟩ := fields_of_session hsession
    rw [feed_nil, hhold, feed_longest_drain] at hret htokens
    rw [hhold, feed_longest_drain] at hu
    exact ⟨_, execInByte_ready 0x41 hr, u, hu, hret, htokens⟩

/-! ### Runs of the machine -/

theorem run_add {M : Host.Core} {s t : M.State} {m : Nat} (h : M.run m s = .next t) (n : Nat) :
    M.run (m + n) s = M.run n t := by
  induction m generalizing s with
  | zero =>
    obtain rfl : s = t := by simpa [Host.Core.run] using h
    rw [Nat.zero_add]
  | succ m ih =>
    rw [Nat.succ_add, Host.Core.run]
    rw [Host.Core.run] at h
    split at h
    · exact ih h
    · cases h
    · cases h

theorem run_one {s t : State} (h : step s = .next t) : core.run 1 s = .next t := by
  have hcore : core.step s = .next t := h
  simp [Host.Core.run, hcore]

/-- The coming samples are `ps`, and no command is kept as offered. -/
def Awaits (s : State) (ps : List Pins) : Prop := s.inputs = ps ∧ s.offered = none

theorem Awaits.pins_eq {s : State} {p : Pins} {ps : List Pins} (h : Awaits s (p :: ps)) : s.pins = p := by
  rw [State.pins, h.1, List.headD_cons]

/-- With no command kept, a step answers. -/
theorem Awaits.step_next {s : State} {ps : List Pins} (h : Awaits s ps) : ∃ t, step s = .next t := by
  obtain ⟨f, -, hstep⟩ := HoldBuffer.step_respects s.pins s.hold
  exact ⟨f s, hstep s rfl rfl (by rw [commandChanged, h.2])⟩

/-- The step reads the first sample. -/
theorem Awaits.sampled {s : State} {p : Pins} {ps : List Pins} (h : Awaits s (p :: ps)) (hv : p.inValid = false) :
    Awaits (sample s) ps := by
  refine ⟨by rw [sample_inputs, h.1, List.tail_cons], ?_⟩
  rw [sample_offered, h.pins_eq, hv, h.2]
  rfl

/-- A step on the sample of one byte accepts it, at a block that is ready. -/
theorem step_bytePins {s : State} {d : Byte} {ps : List Pins} (h : Awaits s (bytePins d :: ps))
    (hr : resolvable s.hold = false) :
    step s = .next (acceptByte d (sample s)) ∧ Awaits (acceptByte d (sample s)) ps := by
  obtain ⟨t, ht⟩ := h.step_next
  have hpins := h.pins_eq
  rcases (step_cases ht).2 with ⟨hrst, -⟩ | ⟨-, hr', -⟩ | ⟨-, -, -, ⟨-, rfl⟩ | ⟨he, -⟩⟩ | ⟨-, -, hv, -⟩
  · simp [hpins, bytePins] at hrst
  · simp [hr] at hr'
  · rw [hpins] at ht
    exact ⟨ht, by simp [h.1], rfl⟩
  · simp [hpins, bytePins] at he
  · simp [hpins, bytePins] at hv

/-- A step with the consumer ready delivers the offered token; at a block that is ready it changes nothing of the
session. Either way what FEED of nothing gives stays the same, and a drain that goes on has fewer bytes to go. -/
theorem step_takePins {s : State} {ps : List Pins} (h : Awaits s (takePins :: ps)) :
    ∃ t, step s = .next t ∧ Awaits t ps ∧ session (runFeed [] t) = session (runFeed [] s) ∧
      (resolvable t.hold = true → resolvable s.hold = true ∧ t.hold.length < s.hold.length) := by
  obtain ⟨t, ht⟩ := h.step_next
  have hpins := h.pins_eq
  have hnext : Awaits (sample s) ps := h.sampled rfl
  refine ⟨t, ht, ?_⟩
  rcases (step_cases ht).2 with ⟨hrst, -⟩ | ⟨-, hr, ⟨-, k, hk, rfl⟩ | ⟨hq, -⟩⟩ | ⟨-, -, hv, -⟩ | ⟨-, hr, -, hidle⟩
  · simp [hpins, takePins] at hrst
  · obtain ⟨hpos, hlen, -⟩ := offered_len hk
    refine ⟨hnext, session_runFeed_deliver (s := sample s) hk _, fun _ => ⟨hr, ?_⟩⟩
    rw [deliver_hold, noteDecoded_hold, sample_hold, List.length_drop]
    omega
  · simp [hpins, takePins] at hq
  · simp [hpins, takePins] at hv
  · rcases hidle with ⟨-, rfl⟩ | ⟨-, rfl⟩
    · exact ⟨hnext, rfl, fun hr' => by simp [hr] at hr'⟩
    · exact ⟨hnext, rfl, fun hr' => by simp [hr] at hr'⟩

/-- As many samples with the consumer ready as H has bytes drain the block. -/
theorem run_drain (n : Nat) {s : State} {ps : List Pins} (h : Awaits s (List.replicate n takePins ++ ps))
    (hlen : resolvable s.hold = true → s.hold.length ≤ n) :
    ∃ t, core.run n s = .next t ∧ Awaits t ps ∧ session t = session (runFeed [] s) := by
  induction n generalizing s with
  | zero =>
    refine ⟨s, rfl, h, (session_runFeed_rest (Bool.eq_false_iff.2 fun hr => ?_)).symm⟩
    have hnil : s.hold = [] := List.length_eq_zero_iff.1 (Nat.le_zero.1 (hlen hr))
    simp [hnil] at hr
  | succ n ih =>
    obtain ⟨t, ht, hnext, hsame, hdrop⟩ := step_takePins h
    have hlen' : resolvable t.hold = true → t.hold.length ≤ n := fun hr' => by
      obtain ⟨hr, hlt⟩ := hdrop hr'
      exact Nat.le_of_lt_succ (hlt.trans_le (hlen hr))
    obtain ⟨u, hu, hend, hsession⟩ := ih hnext hlen'
    refine ⟨u, ?_, hend, hsession.trans hsame⟩
    rw [Nat.add_comm, run_add (run_one ht), hu]

theorem serialInputs_cons (d : Byte) (C : List Byte) :
    serialInputs (d :: C) = bytePins d :: (List.replicate 6 takePins ++ serialInputs C) := rfl

/-- One byte and a full drain are FEED of that byte. -/
theorem run_byte {s : State} {d : Byte} {ps : List Pins} (hr : resolvable s.hold = false)
    (h : Awaits s (bytePins d :: (List.replicate 6 takePins ++ ps))) :
    ∃ t, core.run (1 + 6) s = .next t ∧ Awaits t ps ∧ session t = session (runFeed [d] s) := by
  obtain ⟨hstep, hnext⟩ := step_bytePins h hr
  obtain ⟨t, ht, hend, hsession⟩ := run_drain 6 hnext fun _ => length_append_le d hr
  exact ⟨t, by rw [run_add (run_one hstep), ht], hend,
    hsession.trans (session_runFeed_acceptByte d (sample s))⟩

/-- The byte-serial run is FEED of the chunk, by induction on the chunk. -/
theorem run_serial (C : List Byte) {s : State} (hr : resolvable s.hold = false) (h : Awaits s (serialInputs C)) :
    ∃ t, core.run (serialInputs C).length s = .next t ∧ Awaits t [] ∧ session t = session (runFeed C s) := by
  induction C generalizing s with
  | nil => exact ⟨s, rfl, h, (session_runFeed_rest hr).symm⟩
  | cons d C ih =>
    obtain ⟨t, ht, hnext, hbyte⟩ := run_byte hr h
    obtain ⟨hhold, -⟩ := fields_of_session hbyte
    obtain ⟨u, hu, hend, hrest⟩ := ih (hhold ▸ feed_retained_rest s.hold [d]) hnext
    refine ⟨u, ?_, hend, ?_⟩
    · have hlen : (serialInputs (d :: C)).length = 1 + 6 + (serialInputs C).length := by
        rw [serialInputs_cons, List.length_cons, List.length_append, List.length_replicate]
        omega
      rw [hlen, run_add ht, hu]
    · calc session u = session (runFeed C t) := hrest
        _ = session (runFeed C (runFeed [d] s)) := session_runFeed_congr hbyte C
        _ = session (runFeed (d :: C) s) := session_runFeed_append [d] C s

/-- Settles O41: the session's part of `run_serial`, field by field. -/
theorem byteSerialRunEqualsFeed : Obligations.ByteSerialRunEqualsFeed := by
  intro s C hready hoff hin
  obtain ⟨t, ht, ⟨hdone, -⟩, hsession⟩ := run_serial C (by simpa using hready) ⟨hin, hoff⟩
  obtain ⟨hhold, haccepted, hpos, htokens, hearlier⟩ := fields_of_session hsession
  exact ⟨t, hin ▸ ht, hhold, htokens, hpos, by rw [hhold, feed_need], haccepted, hearlier, hdone⟩

/-! ### A drained session -/

/-- Settles O56: at a block that is ready the chain of H is H itself, so the invariant's `stream` is the chain of the
accepted bytes, and a chain is unique. -/
theorem drainedOutputIsTheStreamsMeaning : Obligations.DrainedOutputIsTheStreamsMeaning := by
  intro s hinv hready
  have hr : resolvable s.hold = false := by simpa using hready
  have hchain : FrameStarts s.accepted s.tokens s.hold := by
    simpa using hinv.stream [] s.hold (.stop s.hold hr)
  exact ⟨hchain, rest_length hr, fun ts R h => frameStarts_unique hchain h⟩

end Sys2Proof.Reassembler

/-! PROOFS. The consumer boundary (44_consumer_boundary.md R121 to R124): a motion through the encoder, the block's
token and the consumer's reading, and the ranges of the flat index. -/

namespace Sys2Proof.ConsumerBoundary

open Sys2Proof Sys2Proof.Machine Sys2Proof.Laws

/-! ### One axis of a motion -/

/-- R73's sign flag is a bit of its own: the magnitude lies below it. -/
theorem sm13_of_neg {d : Int} (hd : d < 0) (hlo : -4095 ≤ d) : sm13 d = 2 ^ 12 + d.natAbs := by
  have hmag : (-d).toNat = d.natAbs := by omega
  have hflag : 0x1000 ||| d.natAbs = 2 ^ 12 + d.natAbs := by
    simpa using (Nat.shiftLeft_add_eq_or_of_lt (i := 12) (show d.natAbs < 2 ^ 12 by omega) 1).symm
  rw [sm13, if_neg (by omega), hmag, hflag]

theorem sm13_of_nonneg {d : Int} (hd : 0 ≤ d) : sm13 d = d.natAbs := by
  rw [sm13, if_pos hd]
  omega

theorem sm13_lt {d : Int} (hlo : -4095 ≤ d) (hhi : d ≤ 4095) : sm13 d < 2 ^ 13 := by
  rcases lt_or_ge d 0 with hd | hd
  · rw [sm13_of_neg hd hlo]
    omega
  · rw [sm13_of_nonneg hd]
    omega

/-- R123's `sm` by the number of its field. -/
theorem signMagnitude_eq (f : BitVec 13) :
    signMagnitude f = if f.toNat < 2 ^ 12 then (f.toNat : Int) else 2 ^ 12 - (f.toNat : Int) := by
  have hsign : f.getLsbD 12 = decide (2 ^ 12 ≤ f.toNat) := by
    simpa [BitVec.msb_eq_decide] using (BitVec.msb_eq_getLsbD_last f).symm
  have hmag : (f.extractLsb' 0 12).toNat = f.toNat % 2 ^ 12 := by simp
  rw [signMagnitude, hsign, hmag]
  rcases lt_or_ge f.toNat (2 ^ 12) with hf | hf
  · rw [if_pos hf, if_neg (by simpa using hf), Nat.mod_eq_of_lt hf]
  · have hlt := f.isLt
    rw [if_pos (by simpa using hf), if_neg hf.not_gt]
    omega

/-- R123's `sm` undoes R73's `sm13`. -/
theorem signMagnitude_sm13 {d : Int} (hlo : -4095 ≤ d) (hhi : d ≤ 4095) :
    signMagnitude (BitVec.ofNat 13 (sm13 d)) = d := by
  rw [signMagnitude_eq, BitVec.toNat_ofNat, Nat.mod_eq_of_lt (sm13_lt hlo hhi)]
  rcases lt_or_ge d 0 with hd | hd
  · rw [sm13_of_neg hd hlo, if_neg (by omega)]
    omega
  · rw [sm13_of_nonneg hd, if_pos (by omega)]
    omega

/-! ### Both axes in one value -/

/-- R73's `MOVE` lays its two fields side by side, the x axis above. -/
theorem packed_fields {a b : Nat} (hb : b < 2 ^ 13) : (a <<< 13) ||| b = a * 2 ^ 13 + b := by
  rw [← Nat.shiftLeft_add_eq_or_of_lt hb, Nat.shiftLeft_eq]

/-- R123's two fields of a value are the two that were packed. -/
theorem motionOf_packed {a b : Nat} (hb : b < 2 ^ 13) :
    motionOf (BitVec.ofNat 31 ((a <<< 13) ||| b)) =
      (signMagnitude (BitVec.ofNat 13 a), signMagnitude (BitVec.ofNat 13 b)) := by
  have hx : (BitVec.ofNat 31 (a * 2 ^ 13 + b)).extractLsb' 13 13 = BitVec.ofNat 13 a :=
    BitVec.eq_of_toNat_eq (by simp [Nat.shiftRight_eq_div_pow]; omega)
  have hy : (BitVec.ofNat 31 (a * 2 ^ 13 + b)).extractLsb' 0 13 = BitVec.ofNat 13 b :=
    BitVec.eq_of_toNat_eq (by simp)
  rw [packed_fields hb, motionOf, hx, hy]

/-! ### A motion through the block -/

theorem offeredToken_of_frame {B : List Byte} {l : Nat} {v : Value} (h : decode B = .frame l v) :
    offeredToken B = some (.frameTok l v) := by
  cases B with
  | nil => simp at h
  | cons b0 rest => exact FrameDecoder.offeredToken_of_decode h

/-- The block offers an encoded frame as its length and value (R74, R97). -/
theorem offeredToken_enc {i v : Nat} (h1 : 1 ≤ i) (h6 : i ≤ 6) (hv : v < 2 ^ Config.payloadWidth i) :
    offeredToken (enc i v) = some (.frameTok i (BitVec.ofNat 31 v)) := by
  have hdecode := Encoding.encodedFrameDecodesBack i v [] h1 h6 hv
  rw [List.append_nil] at hdecode
  exact offeredToken_of_frame hdecode

theorem interpret_motion (v : Value) :
    interpret (.frameTok 5 v) = some (.moveBy (motionOf v).1 (motionOf v).2) := rfl

/-- Settles O57: the packed value fits a five-byte frame, the block hands it on, and each axis comes back from its own
field. -/
theorem motionsRoundTrip : Obligations.MotionsRoundTrip := by
  intro dx dy hx hx' hy hy'
  have hsx := sm13_lt hx hx'
  have hsy := sm13_lt hy hy'
  have hfit : (sm13 dx <<< 13) ||| sm13 dy < 2 ^ Config.payloadWidth 5 := by
    rw [packed_fields hsy, show Config.payloadWidth 5 = 26 from rfl]
    omega
  refine ⟨_, _, if_pos (by omega), offeredToken_enc (by decide) (by decide) hfit, ?_⟩
  rw [interpret_motion, motionOf_packed hsy, signMagnitude_sm13 hx hx', signMagnitude_sm13 hy hy']

/-! ### Token classes and index ranges -/

theorem tokenClass_char {l : Nat} (v : Value) (h1 : 1 ≤ l) (h4 : l ≤ 4) : tokenClass (.frameTok l v) = some .char :=
  if_pos ⟨h1, h4⟩

theorem interpret_index (v : Value) : interpret (.frameTok 6 v) = some (indexAction v.toNat) := rfl

/-- Slots 8 to 34 are read from the special-key table, whatever it holds (R124; log 13). -/
theorem indexAction_special {n : Nat} (h8 : 8 ≤ n) (h34 : n ≤ 34) :
    indexAction n = (Config.specialKeyTable (Fin.ofNat 27 (n - 8))).elim .reservedSlot .specialKey := by
  have hslot : n ≠ 0 ∧ n ≠ 1 ∧ n ≠ 2 ∧ n ≠ 3 ∧ n ≠ 4 ∧ n ≠ 5 ∧ n ≠ 6 ∧ n ≠ 7 := by omega
  simp only [indexAction, hslot, h34, if_true, if_false]
  cases Config.specialKeyTable (Fin.ofNat 27 (n - 8)) <;> rfl

theorem indexAction_special_cases {n : Nat} (h8 : 8 ≤ n) (h34 : n ≤ 34) :
    indexAction n = .reservedSlot ∨ ∃ k, indexAction n = .specialKey k := by
  rw [indexAction_special h8 h34]
  cases Config.specialKeyTable (Fin.ofNat 27 (n - 8)) with
  | none => exact .inl rfl
  | some k => exact .inr ⟨k, rfl⟩

/-- The six tables end at index 36 (R124). -/
theorem indexAction_unknown_iff (n : Nat) : indexAction n = .unknownIndex ↔ 37 ≤ n := by
  constructor
  · intro h
    by_contra! hn
    rcases lt_or_ge n 8 with h8 | h8
    · interval_cases n <;> cases h
    · rcases Nat.lt_or_ge 34 n with h34 | h34
      · interval_cases n <;> cases h
      · obtain hslot | ⟨k, hslot⟩ := indexAction_special_cases h8 h34 <;> cases hslot.symm.trans h
  · intro hn
    have hlate : ¬ n ≤ 34 := by omega
    have hslot : n ≠ 0 ∧ n ≠ 1 ∧ n ≠ 2 ∧ n ≠ 3 ∧ n ≠ 4 ∧ n ≠ 5 ∧ n ≠ 6 ∧ n ≠ 7 ∧ n ≠ 35 ∧ n ≠ 36 := by omega
    simp only [indexAction, hslot, hlate, if_false]

/-- Settles O58: the classes by the length, and an index frame by `indexAction` of its value. -/
theorem tokenClassesAndIndexRanges : Obligations.TokenClassesAndIndexRanges := by
  refine ⟨fun l v => tokenClass_char v, fun v => ⟨rfl, rfl⟩, fun c b => ⟨rfl, rfl⟩, fun v hv => ?_, fun v hv => ?_,
    fun v h8 h34 => ?_⟩
  · rw [interpret_index, (indexAction_unknown_iff _).2 hv]
  · exact (indexAction_unknown_iff _).1 (Option.some.inj hv)
  · simpa [interpret_index] using indexAction_special_cases h8 h34

end Sys2Proof.ConsumerBoundary

/-! PROOFS. The exceptions (60_exceptions.md R144 to R146, R155): the order of `decode`'s checks, a malformed result as
one OUT_TOKEN, resynchronisation after it, and the block that only waits. -/

namespace Sys2Proof.Exceptions

open Sys2Proof Sys2Proof.Machine Sys2Proof.Safety Sys2Proof.Laws

/-! ### The order of the checks -/

theorem isCont_false_iff_tag_ne (c : Byte) : isCont c = false ↔ c.extractLsb' 6 2 ≠ 0b10#2 := by
  rw [← Bool.not_eq_true, isCont_iff_tag]

/-- The continuation bytes of a frame have a property when its positions 1 to `i - 1` have it. -/
theorem forall_cont_of_positions {b0 : Byte} {rest : List Byte} {i : Nat} {P : Byte → Prop}
    (hs : i ≤ rest.length + 1) (h : ∀ k, 1 ≤ k → k < i → P ((b0 :: rest).getD k 0)) : ∀ c ∈ rest.take (i - 1), P c := by
  intro c hc
  obtain ⟨k, h1, hk, rfl⟩ := (FrameDecoder.exists_cont_iff (b0 := b0) hs (· = c)).1 ⟨c, hc, rfl⟩
  exact h k h1 hk

/-- Settles O14: one lemma for each check, the continuation bytes found by their positions. -/
theorem decodeChecksInOrder : Obligations.DecodeChecksInOrder := by
  refine ⟨decode_nil, fun b0 rest => ⟨fun h7 => ?_, fun hl => StateSteps.decode_of_leadLen_none hl rest,
    fun i h2 hl => ⟨FrameDecoder.decode_needMore hl, fun hs hbad => ?_, fun hs hgood => ?_⟩⟩⟩
  · exact ⟨_, StateSteps.decode_of_leadLen_one ((leadLen_one_iff b0).2 h7) rest⟩
  · obtain ⟨k, h1, hk, htag⟩ := hbad
    exact FrameDecoder.decode_badCont hl h2 hs
      ((FrameDecoder.exists_cont_iff hs _).2 ⟨k, h1, hk, (isCont_false_iff_tag_ne _).2 htag⟩)
  · have hcont : ∀ c ∈ rest.take (i - 1), isCont c = true :=
      forall_cont_of_positions hs fun k h1 hk => (isCont_iff_tag _).2 (hgood k h1 hk)
    exact ⟨_, decode_frame hl h2 hs hcont⟩

/-! ### Taking the exception -/

/-- Settles O32: a malformed result puts its MalTok on offer (R97), and OUT_TOKEN delivers what is on offer. -/
theorem malformedIsOneOutToken : Obligations.MalformedIsOneOutToken := by
  intro s b0 rest c hH hd
  have ho : offeredToken s.hold = some (.malTok c b0) := by
    rw [hH] at hd ⊢
    exact FrameDecoder.offeredToken_of_decode hd
  refine ⟨ho, ?_⟩
  rw [execOutToken_offered ho, hd]
  simp [deliver, noteDecoded, Token.len, hH]

/-! ### Resynchronisation -/

/-- After a malformed byte FEED goes on at the next one (R146). -/
theorem feed_malformed {b0 : Byte} {rest : List Byte} {c : Cause} (hd : decode (b0 :: rest) = .malformed c) :
    feed [] (b0 :: rest) =
      ⟨.malTok c b0 :: (feed [] rest).toks, (feed [] rest).retained, 1 + (feed [] rest).consumed,
        (feed [] rest).need⟩ :=
  feed_offered (FrameDecoder.offeredToken_of_decode hd)

/-- A continuation byte where a lead is due is a BAD_LEAD, whatever follows it. -/
theorem decode_stray {b : Byte} (h : isCont b = true) (rest : List Byte) :
    decode (b :: rest) = .malformed .badLead := by
  have hl : leadLen b = none := by rw [leadLen_eq_class, (Encoding.isCont_iff_stray b).1 h]
  exact StateSteps.decode_of_leadLen_none hl rest

/-- Stray continuation bytes are one BAD_LEAD each, and FEED goes on as if they had not been there (R146). -/
theorem feed_strays {B : List Byte} (h : ∀ c ∈ B, isCont c = true) (S : List Byte) :
    feed [] (B ++ S) =
      ⟨B.map (.malTok .badLead) ++ (feed [] S).toks, (feed [] S).retained, B.length + (feed [] S).consumed,
        (feed [] S).need⟩ := by
  induction B with
  | nil => simp
  | cons b B ih =>
    obtain ⟨hb, hB⟩ := List.forall_mem_cons.1 h
    rw [List.cons_append, feed_malformed (decode_stray hb _), ih hB, List.length_cons,
      Nat.add_comm B.length 1, Nat.add_assoc]
    rfl

/-- Settles O42: one turn of FEED at a malformed byte, and a run of such turns at stray bytes. -/
theorem resynchronisesOneByteAtATime : Obligations.ResynchronisesOneByteAtATime := by
  refine ⟨fun b0 rest c hd => ?_, fun B S h => ?_⟩
  · rw [feed_malformed hd]
    exact ⟨rfl, rfl⟩
  · rw [feed_strays h S]
    exact ⟨rfl, rfl, rfl⟩

/-! ### Waiting -/

/-- A sample that offers no command changes none (R49). -/
theorem commandChanged_of_no_command {s : State} (hv : s.pins.inValid = false) : commandChanged s = false := by
  rw [commandChanged]
  split
  · rfl
  · simp [hv]

/-- A changed command is the only stop of a step (I5). -/
theorem step_next_of_unchanged {s : State} (hc : commandChanged s = false) : ∃ t, step s = .next t := by
  obtain ⟨f, -, hstep⟩ := HoldBuffer.step_respects s.pins s.hold
  exact ⟨f s, hstep s rfl rfl hc⟩

/-- With no reset and no command, a block at rest only reads the sample, and notes the NeedMore of what it holds. -/
theorem step_of_idle {s t : State} (hr : resolvable s.hold = false) (hrst : s.pins.rst = false)
    (hv : s.pins.inValid = false) (h : step s = .next t) :
    t = sample s ∨ t = noteDecoded (decode s.hold) (sample s) := by
  rcases (step_cases h).2 with ⟨hrst', -⟩ | ⟨-, hr', -⟩ | ⟨-, -, hv', -⟩ | ⟨-, -, -, hidle⟩
  · simp [hrst] at hrst'
  · simp [hr] at hr'
  · simp [hv] at hv'
  · exact hidle.imp And.right And.right

/-- Settles O47: neither reading a sample without a command nor noting a result touches H or the records. -/
theorem idleBlockHolds : Obligations.IdleBlockHolds := by
  intro s hready hrst hv
  obtain ⟨t, ht⟩ := step_next_of_unchanged (commandChanged_of_no_command hv)
  have hoffered : (sample s).offered = s.offered := by simp [hv]
  refine ⟨t, ht, ?_⟩
  rcases step_of_idle (by simpa using hready) hrst hv ht with rfl | rfl
  · exact ⟨rfl, rfl, rfl, rfl, rfl, hoffered⟩
  · exact ⟨rfl, rfl, rfl, rfl, rfl, hoffered⟩

end Sys2Proof.Exceptions

/-! PROOFS. Reset and the session's boundaries (70_reset_and_hazards.md R160, R162; 20_memory.md R51). -/

namespace Sys2Proof.ResetAndSessions

open Sys2Proof Sys2Proof.Machine Sys2Proof.Safety Sys2Proof.Laws Sys2Proof.StateSteps

/-! ### Reset -/

/-- A sample with `rst` high changes no command: reset is enabled always (R160, log 6). -/
theorem commandChanged_of_rst {s : State} (hrst : s.pins.rst = true) : commandChanged s = false := by
  rw [commandChanged]
  split
  · rfl
  · simp [hrst]

/-- `rst` wins over every handshake (R160). -/
theorem event_rst {p : Pins} (hrst : p.rst = true) (H : List Byte) : event p H = some .reset := by simp [event, hrst]

theorem step_of_rst {s : State} (hrst : s.pins.rst = true) : step s = exec .reset (sample s) :=
  step_of_event (commandChanged_of_rst hrst) (event_rst hrst s.hold)

/-- Settles O34: with `rst` high the step is RESET on the state sampled, which ends the session with H empty; the
outputs are functions of H alone. -/
theorem resetDominates : Obligations.ResetDominates := by
  intro s
  refine ⟨rfl, step_of_rst, fun hrst => ⟨endSession (sample s), step_of_rst hrst, rfl, ?_, rfl, rfl, rfl, rfl⟩⟩
  simp [delivered]

/-! ### The boundaries of a session -/

/-- Settles O50: of the cases of a step, an accepted byte extends the record, RESET and an accepted EOS start it
afresh, and every other case leaves it alone. -/
theorem sessionBoundaries : Obligations.SessionBoundaries := by
  intro s t h hends
  have hkept : t.accepted ≠ s.accepted := fun he => hends ⟨[], by simp [he]⟩
  rcases (step_cases h).2 with ⟨hrst, rfl⟩ | ⟨-, -, hvalid⟩ | ⟨-, hr, hv, hcmd⟩ | ⟨-, -, -, hidle⟩
  · exact ⟨.inl hrst, rfl⟩
  · rcases hvalid with ⟨-, k, -, rfl⟩ | ⟨-, rfl⟩
    · exact absurd rfl hkept
    · exact absurd rfl hkept
  · rcases hcmd with ⟨-, rfl⟩ | ⟨he, rfl⟩
    · exact absurd ⟨[s.pins.inData], rfl⟩ hends
    · exact ⟨.inr ⟨hr, hv, he⟩, rfl⟩
  · rcases hidle with ⟨-, rfl⟩ | ⟨-, rfl⟩
    · exact absurd rfl hkept
    · exact absurd rfl hkept

end Sys2Proof.ResetAndSessions

/-! PROOFS. The words of an instruction (30_encoding.md R60 to R71; 40_decoder.md R81 to R95): what the instruction
decoder reads from them, whatever follows, and that every byte list begins with the words of the instruction read. -/

namespace Sys2Proof.InstructionWords

open Sys2Proof Sys2Proof.Machine Sys2Proof.Laws

/-! ### The checks after a multi-byte lead -/

/-- Well-formed continuation bytes pass, and their payloads are kept (R85). -/
theorem badContOf_contBytes (b0 : Byte) (ps : List (BitVec 6)) (cs : List Byte) : ∀ good,
    badContOf b0 good (ps.map contByte ++ cs) = badContOf b0 (good ++ ps) cs := by
  induction ps with
  | nil => simp
  | cons p ps ih =>
    intro good
    rw [List.map_cons, List.cons_append, badContOf, if_pos (isCont_contByte p), contBits_contByte, ih,
      List.append_assoc, List.singleton_append]

/-- A frame whose continuation bytes all pass is read as the format's frame instruction, whatever follows. -/
theorem decodeMulti_contBytes {n : Nat} {ps : List (BitVec 6)} (hlen : ps.length = n - 1) (b0 : Byte) (S : List Byte)
    (mk : List (BitVec 6) → Instr) : decodeMulti n b0 (ps.map contByte ++ S) mk = mk ps := by
  have htake : (ps.map contByte ++ S).take (n - 1) = ps.map contByte := List.take_left' (by simpa using hlen)
  have hpass : badContOf b0 [] (ps.map contByte) = none := by
    simpa [badContOf] using badContOf_contBytes b0 ps [] []
  have hbits : (ps.map contByte).map contBits = ps := by simp [Function.comp_def]
  rw [decodeMulti, if_neg (by simp; omega), htake, hpass, hbits]

/-- A frame with a bad continuation byte is read as its BAD_CONT instruction, whatever follows. -/
theorem decodeMulti_badCont {n : Nat} {cs : List Byte} {b0 : Byte} {m : Instr} (hlen : cs.length = n - 1)
    (hm : badContOf b0 [] cs = some m) (S : List Byte) (mk : List (BitVec 6) → Instr) :
    decodeMulti n b0 (cs ++ S) mk = m := by
  rw [decodeMulti, if_neg (by simp; omega), List.take_left' hlen, hm]

/-! ### Bad continuation bytes -/

/-- A tag other than `10` before six bits is a bad byte, which the table's masks tell by its tag (R94). -/
theorem badByte_of_tag (x : BitVec 6) :
    (isCont (0b00#2 ++ x) = false ∧ (0b00#2 ++ x : Byte) &&& 0xC0#8 = 0x00#8 ∧ contBits (0b00#2 ++ x) = x) ∧
    (isCont (0b01#2 ++ x) = false ∧ (0b01#2 ++ x : Byte) &&& 0xC0#8 = 0x40#8 ∧ contBits (0b01#2 ++ x) = x) ∧
    (isCont (0b11#2 ++ x) = false ∧ (0b11#2 ++ x : Byte) &&& 0xC0#8 = 0xC0#8 ∧ contBits (0b11#2 ++ x) = x) := by
  revert x; decide +kernel

/-- The three BAD_CONT rows, at the first bad byte. -/
theorem badContOf_tag (b0 : Byte) (good : List (BitVec 6)) (x : BitVec 6) (after : List Byte) :
    badContOf b0 good ((0b00#2 ++ x) :: after) = some (.badCont00 b0 good x after) ∧
    badContOf b0 good ((0b01#2 ++ x) :: after) = some (.badCont01 b0 good x after) ∧
    badContOf b0 good ((0b11#2 ++ x) :: after) = some (.badCont11 b0 good x after) := by
  obtain ⟨⟨hbad, htag, hbits⟩, ⟨hbad', htag', hbits'⟩, hbad'', htag'', hbits''⟩ := badByte_of_tag x
  refine ⟨?_, ?_, ?_⟩
  · simp [badContOf, hbad, htag, hbits]
  · simp [badContOf, hbad', htag', hbits']
  · simp [badContOf, hbad'', htag'', hbits'']

/-- A bad byte is its tag before its six low bits. -/
theorem bad_byte_cases (c : Byte) : isCont c = false →
    c = 0b00#2 ++ contBits c ∨ c = 0b01#2 ++ contBits c ∨ c = 0b11#2 ++ contBits c := by
  revert c; exact forall_byte_of_fin (by decide +kernel)

/-- The instruction is well formed and its words are the bytes `B` of the stream. -/
structure Spells (B : List Byte) (i : Instr) : Prop where
  wellFormed : WellFormed i = true
  encode_eq : encode i = .stream B

/-- The BAD_CONT instruction read from a frame's bytes has those bytes as its words. -/
theorem badContOf_spells {b0 : Byte} {cs : List Byte} {m : Instr} : ∀ {good : List (BitVec 6)},
    fillsFrame b0 (good.length + cs.length) = true → badContOf b0 good cs = some m →
    Spells (b0 :: (good.map contByte ++ cs)) m := by
  induction cs with
  | nil => intro good _ hm; cases hm
  | cons c cs ih =>
    intro good hfill hm
    have hfill' : fillsFrame b0 (good.length + 1 + cs.length) = true := by
      rwa [List.length_cons, Nat.add_comm cs.length 1, ← Nat.add_assoc] at hfill
    by_cases hc : isCont c = true
    · rw [badContOf, if_pos hc] at hm
      simpa [contByte_contBits c hc] using ih (good := good ++ [contBits c]) (by simpa using hfill') hm
    · obtain ⟨h00, h01, h11⟩ := badContOf_tag b0 good (contBits c) cs
      rcases bad_byte_cases c (by simpa using hc) with htag | htag | htag <;> rw [htag] at hm ⊢
      · cases h00.symm.trans hm
        exact ⟨hfill', rfl⟩
      · cases h01.symm.trans hm
        exact ⟨hfill', rfl⟩
      · cases h11.symm.trans hm
        exact ⟨hfill', rfl⟩

/-! ### The fields of a value -/

/-- A field above the last six bits is a field of what stands before them. -/
theorem field_above {w : Nat} (a : BitVec w) (p : BitVec 6) (k len : Nat) :
    (a ++ p).extractLsb' (k + 6) len = a.extractLsb' k len := by
  simp [BitVec.extractLsb'_append_eq_of_le]

/-- Two fields side by side are one field. -/
theorem fields_join {w : Nat} (v : BitVec w) (k len : Nat) :
    v.extractLsb' (k + 6) len ++ v.extractLsb' k 6 = v.extractLsb' k (len + 6) :=
  BitVec.extractLsb'_append_extractLsb'_eq_extractLsb' rfl

/-- R64's layouts lose no bit of the value. -/
theorem value_of_fields :
    (∀ v : BitVec 11, v.extractLsb' 6 5 ++ v.extractLsb' 0 6 = v) ∧
    (∀ v : BitVec 16, v.extractLsb' 12 4 ++ v.extractLsb' 6 6 ++ v.extractLsb' 0 6 = v) ∧
    (∀ v : BitVec 21, v.extractLsb' 18 3 ++ v.extractLsb' 12 6 ++ v.extractLsb' 6 6 ++ v.extractLsb' 0 6 = v) ∧
    (∀ v : BitVec 26, v.extractLsb' 24 2 ++ v.extractLsb' 18 6 ++ v.extractLsb' 12 6 ++ v.extractLsb' 6 6 ++
      v.extractLsb' 0 6 = v) ∧
    (∀ v : BitVec 31, v.extractLsb' 30 1 ++ v.extractLsb' 24 6 ++ v.extractLsb' 18 6 ++ v.extractLsb' 12 6 ++
      v.extractLsb' 6 6 ++ v.extractLsb' 0 6 = v) := by
  refine ⟨?_, ?_, ?_, ?_, ?_⟩ <;> intro v
  all_goals
    repeat rw [fields_join]
    exact BitVec.extractLsb'_eq_self

/-- The words of a frame instruction, its value given field by field (R64). -/
theorem encode_of_fields :
    (∀ (a : BitVec 5) (p : BitVec 6), encode (.frame2 (a ++ p)) = .stream ((0b110#3 ++ a) :: [p].map contByte)) ∧
    (∀ (a : BitVec 4) (p q : BitVec 6),
      encode (.frame3 (a ++ p ++ q)) = .stream ((0b1110#4 ++ a) :: [p, q].map contByte)) ∧
    (∀ (a : BitVec 3) (p q r : BitVec 6),
      encode (.frame4 (a ++ p ++ q ++ r)) = .stream ((0b11110#5 ++ a) :: [p, q, r].map contByte)) ∧
    (∀ (a : BitVec 2) (p q r t : BitVec 6),
      encode (.frame5 (a ++ p ++ q ++ r ++ t)) = .stream ((0b111110#6 ++ a) :: [p, q, r, t].map contByte)) ∧
    (∀ (a : BitVec 1) (p q r t u : BitVec 6),
      encode (.frame6 (a ++ p ++ q ++ r ++ t ++ u)) =
        .stream ((0b1111110#7 ++ a) :: [p, q, r, t, u].map contByte)) := by
  refine ⟨?_, ?_, ?_, ?_, ?_⟩ <;> intros <;> rw [encode]
  all_goals
    repeat rw [field_above]
    repeat rw [BitVec.extractLsb'_append_eq_right]
    rw [BitVec.extractLsb'_eq_self]
    rfl

/-! ### The rows of the table -/

/-- A pattern before payload bits is a lead byte of the pattern's class (R61). -/
theorem leadClass_of_pattern :
    (∀ a : BitVec 7, leadClass (0b0#1 ++ a) = .f1) ∧ (∀ a : BitVec 5, leadClass (0b110#3 ++ a) = .f2) ∧
    (∀ a : BitVec 4, leadClass (0b1110#4 ++ a) = .f3) ∧ (∀ a : BitVec 3, leadClass (0b11110#5 ++ a) = .f4) ∧
    (∀ a : BitVec 2, leadClass (0b111110#6 ++ a) = .f5) ∧ (∀ a : BitVec 1, leadClass (0b1111110#7 ++ a) = .f6) ∧
    (∀ x : BitVec 6, leadClass (0b10#2 ++ x) = .stray) := by
  decide +kernel

/-- A lead byte of a frame's class is the class's pattern before its payload bits (R61). -/
theorem pattern_of_leadClass (b : Byte) :
    (leadClass b = .f1 → 0b0#1 ++ b.extractLsb' 0 7 = b) ∧
    (leadClass b = .f2 → 0b110#3 ++ b.extractLsb' 0 5 = b) ∧
    (leadClass b = .f3 → 0b1110#4 ++ b.extractLsb' 0 4 = b) ∧
    (leadClass b = .f4 → 0b11110#5 ++ b.extractLsb' 0 3 = b) ∧
    (leadClass b = .f5 → 0b111110#6 ++ b.extractLsb' 0 2 = b) ∧
    (leadClass b = .f6 → 0b1111110#7 ++ b.extractLsb' 0 1 = b) := by
  revert b; exact forall_byte_of_fin (by decide +kernel)

/-- The row of a multi-byte lead byte: how the decoder reads a list led by it, and that the row's frame instruction
is spelt by the lead and its continuation bytes. -/
structure FrameRow (b0 : Byte) (n : Nat) (mk : List (BitVec 6) → Instr) : Prop where
  reads : ∀ rest, decodeInstr (b0 :: rest) = .ok (decodeMulti n b0 rest mk)
  spells : ∀ ps, ps.length = n - 1 → Spells (b0 :: ps.map contByte) (mk ps)

/-- A complete frame of a row is read as the row's frame instruction, whatever follows. -/
theorem FrameRow.decodeInstr_frame {b0 : Byte} {n : Nat} {mk : List (BitVec 6) → Instr} (h : FrameRow b0 n mk)
    {ps : List (BitVec 6)} {i : Instr} (hlen : ps.length = n - 1) (hi : mk ps = i) (S : List Byte) :
    decodeInstr (b0 :: ps.map contByte ++ S) = .ok i := by
  rw [List.cons_append, h.reads, decodeMulti_contBytes hlen, hi]

theorem frameRow2 (a : BitVec 5) : FrameRow (0b110#3 ++ a) 2 fun ps => .frame2 (a ++ payloadAt ps 0) := by
  obtain ⟨-, hclass, -⟩ := leadClass_of_pattern
  obtain ⟨hencode, -⟩ := encode_of_fields
  refine ⟨fun rest => ?_, fun | [p], _ => ⟨rfl, hencode a p⟩⟩
  simp only [decodeInstr, hclass, BitVec.extractLsb'_append_eq_right]

theorem frameRow3 (a : BitVec 4) :
    FrameRow (0b1110#4 ++ a) 3 fun ps => .frame3 (a ++ payloadAt ps 0 ++ payloadAt ps 1) := by
  obtain ⟨-, -, hclass, -⟩ := leadClass_of_pattern
  obtain ⟨-, hencode, -⟩ := encode_of_fields
  refine ⟨fun rest => ?_, fun | [p, q], _ => ⟨rfl, hencode a p q⟩⟩
  simp only [decodeInstr, hclass, BitVec.extractLsb'_append_eq_right]

theorem frameRow4 (a : BitVec 3) :
    FrameRow (0b11110#5 ++ a) 4 fun ps => .frame4 (a ++ payloadAt ps 0 ++ payloadAt ps 1 ++ payloadAt ps 2) := by
  obtain ⟨-, -, -, hclass, -⟩ := leadClass_of_pattern
  obtain ⟨-, -, hencode, -⟩ := encode_of_fields
  refine ⟨fun rest => ?_, fun | [p, q, r], _ => ⟨rfl, hencode a p q r⟩⟩
  simp only [decodeInstr, hclass, BitVec.extractLsb'_append_eq_right]

theorem frameRow5 (a : BitVec 2) :
    FrameRow (0b111110#6 ++ a) 5 fun ps =>
      .frame5 (a ++ payloadAt ps 0 ++ payloadAt ps 1 ++ payloadAt ps 2 ++ payloadAt ps 3) := by
  obtain ⟨-, -, -, -, hclass, -⟩ := leadClass_of_pattern
  obtain ⟨-, -, -, hencode, -⟩ := encode_of_fields
  refine ⟨fun rest => ?_, fun | [p, q, r, t], _ => ⟨rfl, hencode a p q r t⟩⟩
  simp only [decodeInstr, hclass, BitVec.extractLsb'_append_eq_right]

theorem frameRow6 (a : BitVec 1) :
    FrameRow (0b1111110#7 ++ a) 6 fun ps =>
      .frame6 (a ++ payloadAt ps 0 ++ payloadAt ps 1 ++ payloadAt ps 2 ++ payloadAt ps 3 ++ payloadAt ps 4) := by
  obtain ⟨-, -, -, -, -, hclass, -⟩ := leadClass_of_pattern
  obtain ⟨-, -, -, -, hencode⟩ := encode_of_fields
  refine ⟨fun rest => ?_, fun | [p, q, r, t, u], _ => ⟨rfl, hencode a p q r t u⟩⟩
  simp only [decodeInstr, hclass, BitVec.extractLsb'_append_eq_right]

/-- Every multi-byte lead byte has its row. -/
theorem exists_frameRow {b0 : Byte} {n : Nat} (hl : leadLen b0 = some n) (h2 : 2 ≤ n) : ∃ mk, FrameRow b0 n mk := by
  have hc := leadLen_eq_class b0
  obtain ⟨-, hf2, hf3, hf4, hf5, hf6⟩ := pattern_of_leadClass b0
  cases hk : leadClass b0 <;> rw [hl, hk] at hc <;> simp only [Option.some.injEq, reduceCtorEq] at hc <;> subst hc
  case f1 => omega
  case f2 => exact ⟨_, hf2 hk ▸ frameRow2 _⟩
  case f3 => exact ⟨_, hf3 hk ▸ frameRow3 _⟩
  case f4 => exact ⟨_, hf4 hk ▸ frameRow4 _⟩
  case f5 => exact ⟨_, hf5 hk ▸ frameRow5 _⟩
  case f6 => exact ⟨_, hf6 hk ▸ frameRow6 _⟩

/-- A lead byte that needs no other byte is an instruction by itself, whatever follows it. -/
theorem exists_oneByteRow {b0 : Byte} (hl : leadLen b0 = some 1 ∨ leadLen b0 = none) :
    ∃ i, (∀ rest, decodeInstr (b0 :: rest) = .ok i) ∧ Spells [b0] i := by
  have hc := leadLen_eq_class b0
  obtain ⟨hf1, -⟩ := pattern_of_leadClass b0
  obtain ⟨hstray, hFE, hFF⟩ := StateSteps.leadByte_of_badLead_class b0
  cases hk : leadClass b0 <;> simp only [hk] at hc
  case f1 =>
    exact ⟨.frame1 (b0.extractLsb' 0 7), fun _ => by simp only [decodeInstr, hk], rfl, by rw [encode, hf1 hk]⟩
  case stray =>
    exact ⟨.badLead (b0.extractLsb' 0 6), fun _ => by simp only [decodeInstr, hk], rfl, by rw [encode, hstray hk]⟩
  case leadFE => exact ⟨.badLeadFE, fun _ => by simp only [decodeInstr, hk], rfl, by rw [encode, hFE hk]⟩
  case leadFF => exact ⟨.badLeadFF, fun _ => by simp only [decodeInstr, hk], rfl, by rw [encode, hFF hk]⟩
  all_goals simp [hc] at hl

/-! ### Every byte list begins with an instruction's words -/

/-- R94: the lead and the bytes after it are all the bytes it declares. -/
theorem fillsFrame_iff (lead : Byte) (n : Nat) :
    fillsFrame lead n = true ↔ leadLen lead = some (n + 1) ∧ 1 ≤ n := by
  rw [fillsFrame]
  cases leadLen lead with
  | none => simp
  | some i => simp; omega

/-- R95: the lead declares more bytes than are there. -/
theorem fallsShort_iff (lead : Byte) (n : Nat) :
    fallsShort lead n = true ↔ ∃ i, leadLen lead = some i ∧ 2 ≤ i ∧ n + 1 < i := by
  rw [fallsShort]
  cases leadLen lead <;> simp

/-- A multi-byte lead with all its bytes spells the instruction read there: BAD_CONT or the frame. -/
theorem decodeMulti_spells {b0 : Byte} {n : Nat} {rest : List Byte} {mk : List (BitVec 6) → Instr}
    (hrow : FrameRow b0 n mk) (hl : leadLen b0 = some n) (h2 : 2 ≤ n) (hs : n ≤ rest.length + 1) :
    Spells (b0 :: rest.take (n - 1)) (decodeMulti n b0 rest mk) := by
  have hlen : (rest.take (n - 1)).length = n - 1 := by rw [List.length_take]; omega
  rw [decodeMulti, if_neg (by omega)]
  rcases StateSteps.badContOf_cases b0 (rest.take (n - 1)) [] with ⟨hm, hpass⟩ | ⟨m, hm, -⟩ <;> rw [hm]
  · have hback : ((rest.take (n - 1)).map contBits).map contByte = rest.take (n - 1) := by
      rw [List.map_map]
      exact (List.map_congr_left fun c hc => contByte_contBits c (hpass c hc)).trans (List.map_id _)
    simpa only [hback] using hrow.spells ((rest.take (n - 1)).map contBits) (by rw [List.length_map, hlen])
  · have hfill : fillsFrame b0 (n - 1) = true := (fillsFrame_iff _ _).2 ⟨by rw [hl]; congr; omega, by omega⟩
    exact badContOf_spells (by simpa [hlen] using hfill) hm

/-- What the decoder reads is spelt by the list's first `need` bytes: one byte, a short frame's bytes, or a whole
frame's. -/
theorem exists_spelt (b0 : Byte) (rest : List Byte) :
    ∃ i, decodeInstr (b0 :: rest) = .ok i ∧ Spells (b0 :: rest.take (need b0 - 1)) i := by
  have one (hl : leadLen b0 = some 1 ∨ leadLen b0 = none) :
      ∃ i, decodeInstr (b0 :: rest) = .ok i ∧ Spells (b0 :: rest.take (need b0 - 1)) i := by
    obtain ⟨i, hreads, hspells⟩ := exists_oneByteRow hl
    rw [hl.elim need_of_leadLen FrameDecoder.need_of_leadLen_none]
    exact ⟨i, hreads rest, hspells⟩
  rcases FrameDecoder.leadLen_cases b0 with hl | hl | ⟨n, hl, h2⟩
  · exact one (.inl hl)
  · exact one (.inr hl)
  · rw [need_of_leadLen hl]
    rcases Nat.lt_or_ge (rest.length + 1) n with hs | hs
    · refine ⟨_, decodeInstr_short hl h2 hs, (fallsShort_iff _ _).2 ⟨n, hl, h2, hs⟩, ?_⟩
      rw [List.take_of_length_le (by omega), encode]
    · obtain ⟨mk, hrow⟩ := exists_frameRow hl h2
      exact ⟨_, hrow.reads rest, decodeMulti_spells hrow hl h2 hs⟩

/-- Settles O11: `exists_spelt`, the lead byte among the first `need`. -/
theorem decodeThenEncode : Obligations.DecodeThenEncode := by
  intro b0 rest
  obtain ⟨i, hreads, hwf, hencode⟩ := exists_spelt b0 rest
  exact ⟨i, hreads, hwf, by rw [hencode, List.take_cons (need_pos b0)]⟩

/-- Settles O12: the instruction read stands for `decode`'s result. -/
theorem instructionDecoderAgreesWithDecode : Obligations.InstructionDecoderAgreesWithDecode := by
  intro B i h
  cases B with
  | nil => cases h
  | cons b0 rest => exact (StateSteps.decodeInstr_standsFor h).result_eq

/-! ### An instruction is read back from its words -/

/-- The row of FRAME1, whose lead byte is the whole frame. -/
theorem decodeInstr_frame1 (v : BitVec 7) (S : List Byte) : decodeInstr ((0b0#1 ++ v) :: S) = .ok (.frame1 v) := by
  obtain ⟨hclass, -⟩ := leadClass_of_pattern
  simp only [decodeInstr, hclass, BitVec.extractLsb'_append_eq_right]

theorem decodeInstr_badLead (x : BitVec 6) (S : List Byte) : decodeInstr ((0b10#2 ++ x) :: S) = .ok (.badLead x) := by
  obtain ⟨-, -, -, -, -, -, hclass⟩ := leadClass_of_pattern
  simp only [decodeInstr, hclass, BitVec.extractLsb'_append_eq_right]

/-- The bytes of a BAD_CONT instruction are read as it, whatever follows: the good continuations pass, and the bad
byte's tag selects the row. -/
theorem decodeInstr_badCont {tag : BitVec 2} {lead : Byte} {good : List (BitVec 6)} {x : BitVec 6} {after : List Byte}
    {m : Instr} (hfill : fillsFrame lead (good.length + 1 + after.length) = true)
    (hm : badContOf lead good ((tag ++ x) :: after) = some m) (S : List Byte) :
    decodeInstr (badContBytes tag lead good x after ++ S) = .ok m := by
  obtain ⟨hl, h1⟩ := (fillsFrame_iff _ _).1 hfill
  obtain ⟨mk, hrow⟩ := exists_frameRow hl (by omega)
  have hm' : badContOf lead [] (good.map contByte ++ (tag ++ x) :: after) = some m := by
    rwa [badContOf_contBytes, List.nil_append]
  rw [badContBytes, List.cons_append, hrow.reads, decodeMulti_badCont (by simp; omega) hm']

/-- Settles O10: each stream row is read back from its own words, and a frame's value from its fields. -/
theorem followingBytesDoNotMatter : Obligations.FollowingBytesDoNotMatter := by
  intro i B S hwf hB hcomplete
  obtain ⟨hv2, hv3, hv4, hv5, hv6⟩ := value_of_fields
  cases i <;> cases hB
  case frame1 v => exact decodeInstr_frame1 v S
  case frame2 v => exact (frameRow2 _).decodeInstr_frame (ps := [_]) rfl (congrArg _ (hv2 v)) S
  case frame3 v => exact (frameRow3 _).decodeInstr_frame (ps := [_, _]) rfl (congrArg _ (hv3 v)) S
  case frame4 v => exact (frameRow4 _).decodeInstr_frame (ps := [_, _, _]) rfl (congrArg _ (hv4 v)) S
  case frame5 v => exact (frameRow5 _).decodeInstr_frame (ps := [_, _, _, _]) rfl (congrArg _ (hv5 v)) S
  case frame6 v => exact (frameRow6 _).decodeInstr_frame (ps := [_, _, _, _, _]) rfl (congrArg _ (hv6 v)) S
  case badLead x => exact decodeInstr_badLead x S
  case badLeadFE => rfl
  case badLeadFF => rfl
  case badCont00 lead good x after =>
    obtain ⟨hm, -, -⟩ := badContOf_tag lead good x after
    exact decodeInstr_badCont hwf hm S
  case badCont01 lead good x after =>
    obtain ⟨-, hm, -⟩ := badContOf_tag lead good x after
    exact decodeInstr_badCont hwf hm S
  case badCont11 lead good x after =>
    obtain ⟨-, -, hm⟩ := badContOf_tag lead good x after
    exact decodeInstr_badCont hwf hm S
  case needMore lead present => exact absurd rfl (hcomplete lead present)

theorem decodeInstr_needMore {lead : Byte} {present : List Byte} (h : fallsShort lead present.length = true) :
    decodeInstr (lead :: present) = .ok (.needMore lead present) := by
  obtain ⟨i, hl, h2, hs⟩ := (fallsShort_iff _ _).1 h
  exact decodeInstr_short hl h2 hs

/-- A stream instruction is read back from its words alone; NEEDMORE is the one that following bytes would change. -/
theorem decodeInstr_encode {i : Instr} {B : List Byte} (hwf : WellFormed i = true) (hB : encode i = .stream B) :
    decodeInstr B = .ok i := by
  by_cases hn : ∃ lead present, i = .needMore lead present
  · obtain ⟨lead, present, rfl⟩ := hn
    cases hB
    exact decodeInstr_needMore hwf
  · simpa using followingBytesDoNotMatter i B [] hwf hB fun lead present hi => hn ⟨lead, present, hi⟩

/-- A byte's command word has `eos` low before the byte (R71). -/
theorem byteCmd_fields (d : Byte) : (byteCmd d).getLsbD 8 = false ∧ (byteCmd d).extractLsb' 0 8 = d := by
  revert d; exact forall_byte_of_fin (by decide +kernel)

/-- A chunk's run of command words gives the chunk back (R100). -/
theorem decodeChunk_byteCmd (C : List Byte) : decodeChunk (C.map byteCmd) = .ok C := by
  induction C with
  | nil => rfl
  | cons d C ih =>
    obtain ⟨heos, hdata⟩ := byteCmd_fields d
    simp only [List.map_cons, decodeChunk, heos, hdata, ih, Bool.false_eq_true, if_false]

/-- Settles O9: a stream instruction by `decodeInstr_encode`; of the other wires, the commands and the chunk are read
back by their words, and the rest carry their operand as it is. -/
theorem encodeThenDecode : Obligations.EncodeThenDecode := by
  intro i hwf
  cases i with
  | decode B => rfl
  | inByte d => exact congrArg _ (decodeCmd_append false d)
  | inEos x => exact congrArg _ (decodeCmd_append true x)
  | outToken => rfl
  | reset => rfl
  | feed C => simp only [encode, decodeWire, decodeChunk_byteCmd]
  | _ => exact decodeInstr_encode hwf rfl

/-- Settles O13: the instruction decoder, evaluated on each written-out word. -/
theorem writtenOutWordsDecode : Obligations.WrittenOutWordsDecode := ⟨rfl, rfl, rfl, rfl, rfl, rfl, rfl⟩

end Sys2Proof.InstructionWords

/-! PROOFS. The instructions and the step's command (40_decoder.md R80, R87 to R95, R97; 10_state.md R25, R28;
93_implementation_defined.md I5): what a frame, a malformed byte, NEEDMORE and DECODE write, what a ready block runs,
and when a step stops. -/

namespace Sys2Proof.Instructions

open Sys2Proof Sys2Proof.Machine Sys2Proof.Laws

/-! ### Running a result at the frame start -/

/-- A frame's result, run: its token goes out, its length is consumed, and nothing else changes (R97, R104). -/
theorem runResult_frame (l : Nat) (v : Value) (b0 : Byte) (s : State) :
    runResult (.frame l v) b0 s =
      { s with
        hold := s.hold.drop l, pos := s.pos + l, tokens := s.tokens ++ [.frameTok l v]
        decoded := some (.frame l v) } := rfl

/-- A malformed result, run: the exception records the lead byte and drops exactly one byte (R145). -/
theorem runResult_malformed (c : Cause) (b0 : Byte) (s : State) :
    runResult (.malformed c) b0 s =
      { s with
        hold := s.hold.drop 1, pos := s.pos + 1, tokens := s.tokens ++ [.malTok c b0]
        decoded := some (.malformed c) } := rfl

/-- Settles O26: each format's meaning is to run the frame result of its own length. -/
theorem frameInstructionsDeliver : Obligations.FrameInstructionsDeliver := by
  intro s
  have run (l : Nat) (v : Value) := congrArg (Host.Outcome.next (φ := Fault) (ρ := Refusal)) (runResult_frame l v 0 s)
  exact ⟨fun v => run 1 (v.setWidth 31), fun v => run 2 (v.setWidth 31), fun v => run 3 (v.setWidth 31),
    fun v => run 4 (v.setWidth 31), fun v => run 5 (v.setWidth 31), fun v => run 6 v⟩

/-- Settles O27: each row's meaning is to run the malformed result of its cause with its lead byte. -/
theorem malformedInstructionsDropOneByte : Obligations.MalformedInstructionsDropOneByte := by
  intro s
  have run (c : Cause) (b0 : Byte) :=
    congrArg (Host.Outcome.next (φ := Fault) (ρ := Refusal)) (runResult_malformed c b0 s)
  exact ⟨fun x => run .badLead (0b10#2 ++ x), run .badLead 0xFE, run .badLead 0xFF,
    fun lead _ _ _ => run .badCont lead, fun lead _ _ _ => run .badCont lead, fun lead _ _ _ => run .badCont lead⟩

theorem execNeedMore_eq (lead : Byte) (present : List Byte) (s : State) :
    exec (.needMore lead present) s = .next (noteDecoded (.needMore (need lead)) s) := rfl

/-- Settles O28: the declared length is `need` of the lead, and the result is only noted. -/
theorem needMoreConsumesNothing : Obligations.NeedMoreConsumesNothing := by
  intro s lead present i hl hs
  refine ⟨FrameDecoder.decode_needMore hl hs, ?_⟩
  rw [execNeedMore_eq, need_of_leadLen hl, noteDecoded]

/-- Settles O29: DECODE only notes its result. -/
theorem decodeWritesNothing : Obligations.DecodeWritesNothing := fun _ _ => rfl

/-! ### The command on the input channel -/

/-- A block that is ready takes the command on its lines (R28, R49, R71). -/
theorem event_command {p : Pins} {H : List Byte} (hrst : p.rst = false) (hr : resolvable H = false)
    (hv : p.inValid = true) : event p H = some (if p.inEos then .inEos p.inData else .inByte p.inData) := by
  simp only [event, hrst, outValid_eq, hr, hv, Bool.false_eq_true, if_false, if_true, Command.word, Pins.command,
    decodeCmd_append]

/-- Settles O45: the event of the sample is its command, IN_EOS or IN_BYTE by `in_eos`. -/
theorem stepRunsTheOfferedCommand : Obligations.StepRunsTheOfferedCommand := by
  intro s hc hrst hready hv
  have hstep := StateSteps.step_of_event hc (event_command hrst (by simpa using hready) hv)
  exact ⟨fun he => by simpa [he] using hstep, fun he => by simpa [he] using hstep⟩

/-- The fault's condition: without reset, the lines show another command than the one kept (I5, log 6). -/
theorem commandChanged_iff (s : State) :
    commandChanged s = true ↔
      ∃ c, s.offered = some c ∧ s.pins.rst = false ∧ s.pins.inValid = true ∧ s.pins.command ≠ c := by
  rw [commandChanged]
  cases s.offered with
  | none => simp
  | some c => simp [and_assoc]

theorem step_of_changed {s : State} (hc : commandChanged s = true) : step s = .fault .commandChanged := by
  rw [step, if_pos hc]

/-- Settles O46: the check at the head of the step is its only stop. -/
theorem stepStopsOnlyOnAChangedCommand : Obligations.StepStopsOnlyOnAChangedCommand := fun s =>
  ⟨commandChanged_iff s, step_of_changed, Exceptions.step_next_of_unchanged⟩

end Sys2Proof.Instructions

/-! PROOFS. The session invariant (20_memory.md R20, R43, R50; 41_reassembler.md R100, R109, R110): it holds where a
session starts, the operations keep it, and so do FEED and every step. -/

namespace Sys2Proof.SessionInvariant

open Sys2Proof Sys2Proof.Machine Sys2Proof.Safety Sys2Proof.Laws Sys2Proof.FeedLoop Sys2Proof.Reassembler

/-! ### What the invariant speaks of -/

/-- The invariant speaks of the session's part of a state alone. -/
theorem sessionInv_of_session {s t : State} (h : SessionInv s) (hsame : session t = session s) : SessionInv t := by
  have hpart : SessionInv (session t) :=
    hsame ▸ ⟨h.bound, h.within, h.held, h.counted, h.legal, h.stream⟩
  exact ⟨hpart.bound, hpart.within, hpart.held, hpart.counted, hpart.legal, hpart.stream⟩

/-- Where a session starts: nothing held, accepted, consumed or delivered. -/
theorem sessionInv_of_fresh {s : State} (hhold : s.hold = []) (hacc : s.accepted = []) (hpos : s.pos = 0)
    (htok : s.tokens = []) : SessionInv s where
  bound := by simp [hhold]
  within := by simp [hpos]
  held := by simp [hhold, hacc]
  counted := by simp [hpos, htok]
  legal := by simp [htok]
  stream := fun ts R hchain => by simpa [hhold, hacc, htok] using hchain

/-- Settles O54: reset starts a session. -/
theorem resetHasTheSessionInvariant : Obligations.ResetHasTheSessionInvariant := sessionInv_of_fresh rfl rfl rfl rfl

/-! ### Accepting and delivering -/

/-- H is what is left of the accepted bytes. -/
theorem hold_length {s : State} (h : SessionInv s) : s.pos + s.hold.length = s.accepted.length := by
  rw [← h.held, List.length_drop]
  exact Nat.add_sub_cancel' h.within

/-- More bytes accepted stand after H (R43). -/
theorem accepted_append_drop {s : State} (h : SessionInv s) (C : List Byte) :
    (s.accepted ++ C).drop s.pos = s.hold ++ C := by
  rw [List.drop_append_of_le_length h.within, h.held]

/-- The session's tokens, then the chain of H with more bytes, are the chain of the accepted bytes with them: H's own
chain comes first, and a chain is unique. -/
theorem stream_append {s : State} (h : SessionInv s) {C : List Byte} {ts : List Token} {R : List Byte}
    (hchain : FrameStarts (s.hold ++ C) ts R) : FrameStarts (s.accepted ++ C) (s.tokens ++ ts) R := by
  have hown := frameStarts_feed s.hold
  have hrest := frameStarts_feed ((feed [] s.hold).retained ++ C)
  obtain ⟨rfl, rfl⟩ := frameStarts_unique (frameStarts_append hown hrest) hchain
  rw [← List.append_assoc]
  exact frameStarts_append (h.stream _ _ hown) hrest

/-- IN_BYTE at a block that is ready. -/
theorem sessionInv_acceptByte {s : State} (h : SessionInv s) (hr : resolvable s.hold = false) (b : Byte) :
    SessionInv (acceptByte b s) where
  bound := length_append_le b hr
  within := by
    have := h.within
    simp
    omega
  held := accepted_append_drop h [b]
  counted := h.counted
  legal := h.legal
  stream := fun _ _ => stream_append h

/-- Delivering the offered token takes it from the head of H's chain to the end of the session's tokens. -/
theorem sessionInv_deliver {s : State} {k : Token} (h : SessionInv s) (hk : offeredToken s.hold = some k) :
    SessionInv (deliver k s) where
  bound := by
    rw [deliver_hold, List.length_drop]
    exact (Nat.sub_le ..).trans h.bound
  within := by
    have := hold_length h
    obtain ⟨-, hlen, -⟩ := offered_len hk
    simp
    omega
  held := by simp [← List.drop_drop, h.held]
  counted := by simp [h.counted]
  legal := by
    have := Encoding.offeredToken_legal hk
    simpa [or_imp, forall_and, this] using h.legal
  stream := fun ts R hchain => by
    simpa using h.stream (k :: ts) R (.next _ k ts R hk hchain)

/-! ### FEED -/

/-- FEED's tokens are within R70's limits, as every offered token is. -/
theorem feed_legal (R C : List Byte) : ∀ t ∈ (feed R C).toks, t.legal = true := by
  rw [feed_eq]
  induction R ++ C using stream_induction with
  | rest B h => simp [feed_rest h]
  | turn B t h ih =>
    rw [feed_offered h]
    exact List.forall_mem_cons.2 ⟨Encoding.offeredToken_legal h, ih⟩

/-- A buffer at rest is its own chain. -/
theorem frameStarts_of_rest {H : List Byte} {ts : List Token} {R : List Byte} (hr : resolvable H = false)
    (hchain : FrameStarts H ts R) : ts = [] ∧ R = H := frameStarts_unique (.stop H hr) hchain

/-- FEED moves what it consumes of H and the chunk into tokens, and what it retains is at rest. -/
theorem sessionInv_runFeed {s : State} (h : SessionInv s) (C : List Byte) : SessionInv (runFeed C s) where
  bound := (rest_length (feed_retained_rest s.hold C)).trans (by decide)
  within := by
    have := hold_length h
    obtain ⟨hle, -⟩ := feed_retained s.hold C
    simp at hle ⊢
    omega
  held := by
    obtain ⟨-, hret⟩ := feed_retained s.hold C
    rw [runFeed_accepted, runFeed_pos, runFeed_hold, ← List.drop_drop, accepted_append_drop h, hret]
  counted := by simp [h.counted, (feed_tokens s.hold C).1]
  legal := by
    have := feed_legal s.hold C
    simpa [or_imp, forall_and] using ⟨h.legal, this⟩
  stream := fun ts R hchain => by
    obtain ⟨rfl, rfl⟩ := frameStarts_of_rest (feed_retained_rest s.hold C) hchain
    have hfeed := frameStarts_feed (s.hold ++ C)
    rw [← feed_eq] at hfeed
    simpa using stream_append h hfeed

/-- Settles O37: FEED's result, with its chain, its count and its `need`. -/
theorem feedInstructionRuns : Obligations.FeedInstructionRuns := by
  intro s C
  have hchain := frameStarts_feed (s.hold ++ C)
  obtain ⟨⟨-, hcount⟩, -⟩ := feedPostconditions s.hold C
  rw [← feed_eq] at hchain
  exact ⟨feed s.hold C, hchain, hcount, feed_need s.hold C, rfl⟩

/-- Settles O55: FEED is `runFeed`, which keeps the invariant. -/
theorem feedKeepsTheSessionInvariant : Obligations.FeedKeepsTheSessionInvariant := fun s C h =>
  ⟨runFeed C s, rfl, sessionInv_runFeed h C⟩

/-! ### The step -/

/-- Settles O53: a session boundary starts a session; accepting a byte and delivering a token keep the invariant; the
rest of a step is no part of the session. -/
theorem stepKeepsTheSessionInvariant : Obligations.StepKeepsTheSessionInvariant := by
  intro s t h hstep
  have hsample : SessionInv (sample s) := sessionInv_of_session h rfl
  rcases (step_cases hstep).2 with ⟨-, rfl⟩ | ⟨-, -, hvalid⟩ | ⟨-, hr, -, hcmd⟩ | ⟨-, -, -, hidle⟩
  · exact sessionInv_of_fresh rfl rfl rfl rfl
  · rcases hvalid with ⟨-, k, hk, rfl⟩ | ⟨-, rfl⟩
    · exact sessionInv_deliver (s := noteDecoded _ (sample s)) (sessionInv_of_session h rfl) hk
    · exact hsample
  · rcases hcmd with ⟨-, rfl⟩ | ⟨-, rfl⟩
    · exact sessionInv_acceptByte hsample hr _
    · exact sessionInv_of_fresh rfl rfl rfl rfl
  · rcases hidle with ⟨-, rfl⟩ | ⟨-, rfl⟩
    · exact hsample
    · exact sessionInv_of_session h rfl

end Sys2Proof.SessionInvariant
